-- ==== Sys2Proof/Config.lean ====
section
/-! DEFINITION. The configuration of R7, which reaches every operation as data of the state (R36, log 15), the start-up byte of
ring storage, and the free values. -/

namespace Sys2Proof

namespace Config

/-- What a byte of ring storage reads as when nothing has been pushed to its slot: storage is "pre-zeroed at
startup" (R21, R37). -/
abbrev storageAtReset : BitVec 8 := 0x00

/-- FREE VALUE: what `tail` holds after the `i`-th AdvanceUnderrun ("`tail` and everything after have no defined
value", R215), reduced to the counter's width where it is used. Log 7. -/
opaque underrunTail (i : Nat) : Nat

/-- FREE VALUE: what channel `i` of the actuator sink holds before the first event (R36, R243, U8), reduced to the width of a
drive value where it is used. Log 18. -/
opaque sinkAtReset (i : Nat) : Nat

end Config

/-- The parameters of R7, one field each under its own name, with the constraints R7 states. -/
structure Params where
  /-- `C`, the ring capacity in bytes. -/
  capacity : Nat
  /-- `IDXW`, the width of a storage index. -/
  indexWidth : Nat
  /-- `CW`, the width of `head` and `tail` (decision D1). -/
  counterWidth : Nat
  /-- `SENTINEL`, the value of each of the two sentinel bytes. -/
  sentinel : BitVec 8
  /-- `MIN_MSG_SIZE`, the least occupancy at which a pass inspects the buffer (decision D20). -/
  minMsgSize : Nat
  /-- `CMD_SET_THROTTLE`, the one defined command identifier. -/
  cmdSetThrottle : BitVec 8
  /-- `NCH`, the number of actuator channels. -/
  channels : Nat
  /-- `VALW`, the width of a drive value, a target, a current value (decision D18). -/
  valueWidth : Nat
  /-- `THR_LO`, the lower clamp bound. -/
  throttleLo : Nat
  /-- `THR_HI`, the upper clamp bound. -/
  throttleHi : Nat
  /-- `DELTA`, the ramp step of one tick. -/
  delta : Nat
  /-- `NEUTRAL`, the start-up value of every target and current value (decision D3). -/
  neutral : Nat
  /-- `C = 2^IDXW`. -/
  capacity_eq : capacity = 2 ^ indexWidth
  /-- `CW > IDXW`. -/
  counterWidth_gt : indexWidth < counterWidth
  /-- `4 <= MIN_MSG_SIZE <= C`. -/
  minMsgSize_range : 4 ≤ minMsgSize ∧ minMsgSize ≤ capacity
  /-- `THR_LO <= NEUTRAL <= THR_HI < 2^VALW`. -/
  throttle_range : throttleLo ≤ neutral ∧ neutral ≤ throttleHi ∧ throttleHi < 2 ^ valueWidth
  /-- `DELTA >= 1`. -/
  delta_pos : 1 ≤ delta
  /-- The model's (log 15): `SET_THROTTLE` has at least two values, and the offsets `3 + 2*i` at which R88 has the channels' bytes
  read are offsets of `PEEK`, 0..255 (D13). -/
  channels_range : 2 ≤ channels ∧ 3 + 2 * channels ≤ 255
  deriving DecidableEq, Repr

/-- The defaults of R7. -/
def Params.default : Params where
  capacity := 256
  indexWidth := 8
  counterWidth := 9
  sentinel := 0xFF
  minMsgSize := 6
  cmdSetThrottle := 0x01
  channels := 3
  valueWidth := 16
  throttleLo := 3000
  throttleHi := 6000
  delta := 450
  neutral := 4500
  capacity_eq := by decide
  counterWidth_gt := by decide
  minMsgSize_range := by decide
  throttle_range := by decide
  delta_pos := by decide
  channels_range := by decide

/-- `2^CW`, the number of values of a counter. -/
def Params.counterRange (p : Params) : Nat := 2 ^ p.counterWidth

/-- The channel numbers `1..NCH`, in order. -/
def Params.channelNumbers (p : Params) : List Nat := List.range' 1 p.channels

/-- Bytes of a frame that `SET_THROTTLE` reads: the four of the header and two for each channel (R84, R88): 10 for the three
channels of R7. -/
def Params.frameBytes (p : Params) : Nat := 4 + 2 * p.channels

end Sys2Proof
end

