-- ==== Sys2Proof/Word.lean ====
section
/-! DEFINITION. The words of the block that have one width: bytes, counts, values in a frame, request words. A counter of `CW`
bits and a drive value of `VALW` bits are natural numbers, since their widths are parameters (R7, log 15). -/

namespace Sys2Proof

/-- One byte of the stream or of ring storage (R20, R81). -/
abbrev Byte := BitVec 8

/-- The count operand of `ADVANCE`: 0..511, whatever `CW` is (R93, decision D13). -/
abbrev Count := BitVec 9

/-- A value in a frame: two bytes, unsigned, 0..65535 (R53, R84, R88). -/
abbrev Immediate := BitVec 16

/-- A container for a request word: the longest word of R93 has 10 bits, and the bits above a word are 0. -/
abbrev Word := BitVec 16

end Sys2Proof
end

