-- ==== Sys2Proof/Syntax.lean ====
section
/-! DEFINITION. The twelve operations of R8 and of spec/opcode_table.json as abstract syntax. -/

namespace Sys2Proof

/-- One constructor per row of the opcode table: nine port operations, then the three outcomes of decoding the
bytes at the tail (R8, R93). -/
inductive Instr where
  /-- `PUSH(b)`, R110. -/
  | push (b : Byte)
  /-- `AVAILABLE()`, R111. -/
  | available
  /-- `PEEK(k)`, R112. -/
  | peek (k : Byte)
  /-- `ADVANCE(n)`, R113. -/
  | advance (n : Count)
  /-- `SCAN()`, R130. -/
  | scan
  /-- `DISPATCH()`, R150. -/
  | dispatch
  /-- `RAMP_STEP()`, R170. -/
  | rampStep
  /-- `SINK_WRITE()`, R171. -/
  | sinkWrite
  /-- `TICK()`, R190. -/
  | tick
  /-- `SET_THROTTLE`, R151: the `len` byte (kept, never tested: R85) and the big-endian immediates (R88) of channel 1, of
  channel 2, and of the channels from 3 to `NCH`, which is one at the NCH of R7. -/
  | setThrottle (len : Byte) (v1 v2 : Immediate) (vs : List Immediate)
  /-- `CMD_RESERVED`, R152: the `len` byte and the command identifier, any but CMD_SET_THROTTLE. -/
  | cmdReserved (len cmd : Byte)
  /-- `RESYNC_BYTE`, R133: the two bytes looked at, not both SENTINEL. -/
  | resyncByte (b0 b1 : Byte)
  deriving DecidableEq, Repr

end Sys2Proof
end

