-- ==== Sys2Proof/WellFormed.lean ====
section
/-! DEFINITION. Which instructions are well-formed: the three decode outcomes of R90, each with a condition of its own. -/

namespace Sys2Proof

/-- `SET_THROTTLE` has one value for each channel (R84), a reserved command's identifier is not CMD_SET_THROTTLE (R89, R152),
and the two bytes of a `RESYNC_BYTE` are not the sentinel pair (R133). Every other operand is in its domain by its type
(R93). -/
def Instr.wf (p : Params) : Instr → Bool
  | .setThrottle _ _ _ vs => vs.length + 2 == p.channels
  | .cmdReserved _ cmd => cmd != p.cmdSetThrottle
  | .resyncByte b0 b1 => !(b0 == p.sentinel && b1 == p.sentinel)
  | .push _ => true
  | .available => true
  | .peek _ => true
  | .advance _ => true
  | .scan => true
  | .dispatch => true
  | .rampStep => true
  | .sinkWrite => true
  | .tick => true

end Sys2Proof
end

