-- ==== Sys2Proof/Decode.lean ====
section
/-! DEFINITION. The request words of the port operations (R93), the wire frame format (R80 to R92), the encoder, and
the spec's textual notation (R95, R96). -/

namespace Sys2Proof

/-- The ports: which operation a request word is presented to. The words do not tell the operation: six of them are the
same one bit (R93, log 2). -/
inductive Port where
  | push | available | peek | advance | scan | dispatch | rampStep | sinkWrite | tick
  deriving DecidableEq, Repr

/-- An encoded instruction: a request word on a port (R93), or the bytes of the stream at the tail (R81). -/
inductive Encoded where
  | port (p : Port) (w : Word)
  | wire (bytes : List Byte)
  deriving DecidableEq, Repr

/-- Why an encoding is rejected. -/
inductive DecodeError where
  /-- The strobe bit is 0: the operation is not requested (R93). -/
  | noStrobe (p : Port)
  /-- A bit above the request word is 1: no word of the port (R93). -/
  | strayBits (p : Port)
  /-- Fewer bytes than the outcome reads. No run meets it: `PEEK` is total (R112). -/
  | truncated
  deriving DecidableEq, Repr

/-- How many operand bits stand below the strobe bit of a port's request word (R93). -/
def Port.operandBits : Port → Nat
  | .push => 8
  | .peek => 8
  | .advance => 9
  | .available => 0
  | .scan => 0
  | .dispatch => 0
  | .rampStep => 0
  | .sinkWrite => 0
  | .tick => 0

/-- The operation of a port with the operand its word carries (R93). -/
def Port.instr (p : Port) (w : Word) : Instr :=
  match p with
  | .push => .push (w.setWidth 8)
  | .available => .available
  | .peek => .peek (w.setWidth 8)
  | .advance => .advance (w.setWidth 9)
  | .scan => .scan
  | .dispatch => .dispatch
  | .rampStep => .rampStep
  | .sinkWrite => .sinkWrite
  | .tick => .tick

/-- A request word: the strobe bit 1, then the operands, and nothing above (R93). -/
def decodePort (p : Port) (w : Word) : Except DecodeError Instr :=
  if w.toNat / 2 ^ p.operandBits = 1 then .ok (p.instr w)
  else if w.getLsbD p.operandBits then .error (.strayBits p)
  else .error (.noStrobe p)

/-- The byte that arrives first is the more significant: `u16be(hi, lo) = hi*256 + lo` (R12, R53). -/
def u16be (hi lo : Byte) : Immediate := hi ++ lo

/-- `hi(t) = t[15:8]` (R96). -/
def hiByte (v : Immediate) : Byte := v.extractLsb' 8 8

/-- `lo(t) = t[7:0]` (R96). -/
def loByte (v : Immediate) : Byte := v.extractLsb' 0 8

/-- Big-endian values, `n` of them, and what follows is not read (R88). -/
def decodeValues : Nat → List Byte → Except DecodeError (List Immediate)
  | 0, _ => .ok []
  | n + 1, hi :: lo :: rest =>
    match decodeValues n rest with
    | .ok vs => .ok (u16be hi lo :: vs)
    | .error e => .error e
  | _ + 1, _ => .error .truncated

/-- The payload of CMD_SET_THROTTLE: one value for each channel (R84, R88). -/
def decodeThrottle (p : Params) (len : Byte) (payload : List Byte) : Except DecodeError Instr :=
  match decodeValues p.channels payload with
  | .ok (v1 :: v2 :: vs) => .ok (.setThrottle len v1 v2 vs)
  | .ok _ => .error .truncated
  | .error e => .error e

/-- The bytes after a sentinel pair: `cmd` alone selects the command (R85, R89). -/
def decodeFrame (p : Params) : List Byte → Except DecodeError Instr
  | len :: cmd :: payload =>
    if cmd = p.cmdSetThrottle then decodeThrottle p len payload else .ok (.cmdReserved len cmd)
  | _ => .error .truncated

/-- The three outcomes of decoding the bytes at the tail (R90), in the order of R94: the sentinel pair, then `cmd`, then
the payload of CMD_SET_THROTTLE. -/
def decodeWire (p : Params) : List Byte → Except DecodeError Instr
  | b0 :: b1 :: rest =>
    if b0 = p.sentinel ∧ b1 = p.sentinel then decodeFrame p rest else .ok (.resyncByte b0 b1)
  | _ => .error .truncated

/-- The instruction an encoding stands for, or the name of what is wrong with it. -/
def decode (p : Params) : Encoded → Except DecodeError Instr
  | .port q w => decodePort q w
  | .wire bytes => decodeWire p bytes

/-- The bytes of values in a frame, each big-endian (R84). -/
def valueBytes (vs : List Immediate) : List Byte := vs.flatMap fun v => [hiByte v, loByte v]

/-- The encoding of an instruction (R84, R93): a request word has its strobe bit above its operand bits. -/
def encode (p : Params) : Instr → Encoded
  | .push b => .port .push (0b1_00000000 + b.setWidth 16)
  | .available => .port .available 1
  | .peek k => .port .peek (0b1_00000000 + k.setWidth 16)
  | .advance n => .port .advance (0b1_000000000 + n.setWidth 16)
  | .scan => .port .scan 1
  | .dispatch => .port .dispatch 1
  | .rampStep => .port .rampStep 1
  | .sinkWrite => .port .sinkWrite 1
  | .tick => .port .tick 1
  | .setThrottle len v1 v2 vs =>
    .wire (p.sentinel :: p.sentinel :: len :: p.cmdSetThrottle :: valueBytes (v1 :: v2 :: vs))
  | .cmdReserved len cmd => .wire [p.sentinel, p.sentinel, len, cmd]
  | .resyncByte b0 b1 => .wire [b0, b1]

/-- The low `k` bytes of `w`, most significant first. -/
def bytesBE (w : Nat) : Nat → List Byte
  | 0 => []
  | k + 1 => BitVec.ofNat 8 (w / 256 ^ k) :: bytesBE w k

/-- A frame laid out from a table word: the 32-bit header with offset 0 in bits 31..24 (R83), then the 16-bit values, channel
1 in bits 47..32, channel 2 in bits 63..48 and so on, each big-endian (R84). -/
def tableFrame (p : Params) (w : Nat) : List Byte :=
  bytesBE w 4 ++ (List.range p.channels).flatMap fun k => bytesBE (w / 2 ^ (32 + 16 * k)) 2

/-- Zeros behind the bytes, up to as many as a pass inspects (R131). -/
def padToGuard (p : Params) (bytes : List Byte) : List Byte :=
  bytes ++ List.replicate (p.minMsgSize - bytes.length) 0

/-- The encoding a table word of `nbits` bits stands for. The table's one-bit word is read on the port of `TICK`, its
nine-bit word on that of `PUSH`, its ten-bit word on that of `ADVANCE`; any other word of 16 bits is the two bytes of
`RESYNC_BYTE` (x in bits 15..8), followed by zeros; longer ones are frames. Log 2. -/
def tableEncoded (p : Params) (nbits w : Nat) : Encoded :=
  if nbits ≤ 8 then .port .tick (BitVec.ofNat 16 w)
  else if nbits ≤ 16 then
    if w / 512 = 1 then .port .advance (BitVec.ofNat 16 w)
    else if w / 256 = 1 then .port .push (BitVec.ofNat 16 w)
    else .wire (padToGuard p (bytesBE w 2 ++ List.replicate (p.frameBytes - 2) 0))
  else .wire (padToGuard p (tableFrame p w))

/-- The instruction read from a word of the opcode table, whose frames are those of R7's defaults. -/
def decodeTableWord (nbits w : Nat) : Option Instr :=
  match decode .default (tableEncoded .default nbits w) with
  | .ok i => some i
  | .error _ => none

/-- The items of the spec's notation for byte streams (R95, R96). -/
inductive StreamItem where
  /-- `RAW b0 b1 ...` -/
  | raw (bytes : List Byte)
  /-- `FRAME cmd, b0 b1 ...`: a well-formed frame, for up to 254 payload bytes. -/
  | frame (cmd : Byte) (data : List Byte)
  /-- `FRAMEL len, cmd, b0 b1 ...`: the `len` byte given explicitly. -/
  | frameL (len cmd : Byte) (data : List Byte)
  /-- The pseudo-form `SET_THROTTLE t1, t2, t3`. -/
  | setThrottle (ts : List Immediate)
  deriving DecidableEq, Repr

/-- `FRAME cmd, data` (R95). DESIGN CHOICE (log 24): with 255 or more payload bytes the `m+1` of a FRAME is no byte, R95 says
nothing of it, and the length byte here is `m+1` modulo 256: no well-formed frame. -/
def frameBytes (p : Params) (cmd : Byte) (data : List Byte) : List Byte :=
  p.sentinel :: p.sentinel :: BitVec.ofNat 8 (data.length + 1) :: cmd :: data

/-- The bytes an item stands for (R95); `SET_THROTTLE` expands to a FRAME (R96). -/
def StreamItem.bytes (p : Params) : StreamItem → List Byte
  | .raw bs => bs
  | .frame cmd data => frameBytes p cmd data
  | .frameL len cmd data => p.sentinel :: p.sentinel :: len :: cmd :: data
  | .setThrottle ts => frameBytes p p.cmdSetThrottle (valueBytes ts)

/-- The bytes of a stream, in the order they are pushed. -/
def streamBytes (p : Params) (items : List StreamItem) : List Byte := items.flatMap (StreamItem.bytes p)

end Sys2Proof
end

