-- ==== Sys2Proof/Machine/State.lean ====
section
/-! DEFINITION. The state of the block (R20), the model's own records and inputs beside it, the reset state (R37), and
why a step can stop. -/

namespace Sys2Proof.Machine

/-- Ring storage: (slot, byte) pairs, slots strictly rising, no byte equal to what an unlisted slot reads as. -/
abbrev Memory := List Host.Cell

/-- One value per channel, channel 1 first: the targets, the current values, or one sink event (R28, R29, R171). A value is an
unsigned number of `VALW` bits, below `2^VALW`, and the ramp computes over the integers (R7, R172). -/
structure Drive where
  values : List Nat
  deriving DecidableEq, Repr

/-- The two execution contexts (R9, R224). -/
inductive Agent where
  | producer | consumer
  deriving DecidableEq, Repr

/-- The outcomes of a scan pass (R130). -/
inductive ScanOutcome where
  | wait | resync | dispatched
  deriving DecidableEq, Repr

/-- What an operation answers (the result column of R93). -/
inductive Result where
  /-- The operation has no result. -/
  | none
  /-- `PUSH` stored the byte. -/
  | ok
  /-- `PUSH` dropped the byte. -/
  | overflow
  /-- The count of `AVAILABLE`. -/
  | count (n : Nat)
  /-- The byte of `PEEK`. -/
  | byte (b : Byte)
  /-- The outcome of `SCAN`, and through it of `TICK`. -/
  | outcome (o : ScanOutcome)
  /-- AdvanceUnderrun was raised: the `FAULT` of R95 and R190. -/
  | fault
  deriving DecidableEq, Repr

/-- The five conditions of R210 with the information each carries. -/
inductive Condition where
  /-- EC1, R211. -/
  | bufferOverflow (b : Byte)
  /-- EC2, R212. -/
  | frameMisalignment (s0 s1 : Byte)
  /-- EC3, R213. -/
  | outOfRangeValue (i : Nat) (v : Immediate)
  /-- EC4, R214. -/
  | unknownCommand (cmd : Byte)
  /-- EC5, R215. -/
  | advanceUnderrun (n : Count)
  deriving DecidableEq, Repr

/-- What an agent asks the block to do next (log 1). -/
inductive Request where
  /-- An agent presents a request word on a port (R93, R117). -/
  | call (agent : Agent) (port : Port) (word : Word)
  /-- The CONSUMER performs the command that stands in the stream at the tail (R8, R90; log 3). -/
  | frame
  deriving DecidableEq, Repr

/-- The state. The first six fields are the architectural state of R20, complete; the others are the model's own. -/
structure State where
  /-- Ring storage, `C` bytes (R21). -/
  mem : Memory
  /-- Next write position, producer-owned: a number of `CW` bits, below `2^CW` (R22). -/
  head : Nat
  /-- Next read position, consumer-owned; the scan position: a number of `CW` bits, below `2^CW` (R23, R24). -/
  tail : Nat
  /-- `target[1..NCH]` (R28). -/
  target : Drive
  /-- `current[1..NCH]` (R29). -/
  current : Drive
  /-- The sticky fault bit (R32). -/
  faultUnderrun : Bool
  /-- Model's own: the sink events emitted so far, newest first (R171, R197; log 9). -/
  sink : List Drive
  /-- Model's own: the conditions signalled or raised so far, newest first (R11, R210; log 9). -/
  conditions : List Condition
  /-- Model's own: the result of the last operation a step performed (R93; log 9). -/
  result : Result
  /-- Model's own: the interrupt schedule; the first entry holds the bytes that arrive just before the CONSUMER's next
  access to shared state (R193; log 4). -/
  arrivals : List (List Byte)
  /-- Model's own: the operations asked for and not yet performed (log 1). -/
  requests : List Request
  /-- Model's own: how many free values of `tail` have been drawn (log 7). -/
  draws : Nat
  /-- Model's own: the configuration, no state of the block but the parameters of its step relation (R7, R36). No step
  writes it (log 15). -/
  params : Params
  deriving DecidableEq, Repr

/-- Why the machine stops with a fault. -/
inductive Fault where
  /-- Raised by `step` when `fault_underrun` is 1: the spec gives the state no further meaning (R32, R215). Safe: the
  model stops where a device goes on (decision D4; log 8). -/
  | executionFaulted
  deriving DecidableEq, Repr

/-- Why a step has no meaning. -/
inductive Refusal where
  /-- An arm of exec whose instruction has no meaning yet; no arm is left so. Safe. -/
  | notModelled (mnemonic : String)
  /-- Raised by the fetch: an agent asks for an operation that is not its own (R117, R225, U9). Safe (log 10). -/
  | ownershipBroken (agent : Agent) (port : Port)
  /-- Raised by the fetch: a request word that the decoder rejects (R93). Safe (log 11). -/
  | badRequest (e : DecodeError)
  deriving DecidableEq, Repr

/-- The state after start-up of a block with the parameters `p` (R37, R240), with no input from outside yet. -/
def State.startup (p : Params) : State where
  mem := []
  head := 0
  tail := 0
  target := ⟨List.replicate p.channels p.neutral⟩
  current := ⟨List.replicate p.channels p.neutral⟩
  faultUnderrun := false
  sink := []
  conditions := []
  result := .none
  arrivals := []
  requests := []
  draws := 0
  params := p

/-- The state after start-up at the defaults of R7. -/
def State.reset : State := State.startup Params.default

end Sys2Proof.Machine
end

