-- ==== Sys2Proof/Machine/Operands.lean ====
section
/-! DEFINITION. The operand forms: the two addressing modes of ring storage (R51), the amount a located frame is advanced
by (R87), the offsets of the channels' bytes (R88), and access to one channel of the throttle state. A channel is its
number `i` in the rules, `1..NCH` (R50). -/

namespace Sys2Proof.Machine

/-- `idx(c) = c mod C`, the storage slot of a counter value (R12). -/
def index (p : Params) (c : Nat) : Nat := c % p.capacity

/-- The slot the next successful `PUSH` writes: `idx(head)` (R22, R51). -/
def State.pushSlot (s : State) : Nat := index s.params s.head

/-- The slot `PEEK(k)` reads: `idx(tail + k)`, the sum taken over the integers (R51). -/
def State.peekSlot (s : State) (k : Nat) : Nat := index s.params (s.tail + k)

/-- `(c + n) mod 2^CW`: a counter moved on by `n` (R22, R23, R115). -/
def State.countUp (s : State) (c n : Nat) : Nat := (c + n) % s.params.counterRange

/-- `2 + len` over the integers, 2..257, in the 9 bits of `ADVANCE`'s count (R87). -/
def frameAdvance (len : Byte) : Count := BitVec.ofNat 9 (2 + len.toNat)

/-- Offset of the more significant byte of a channel's value in a frame: `2 + 2*i` (R88). -/
def hiOffset (i : Nat) : Byte := BitVec.ofNat 8 (2 + 2 * i)

/-- Offset of the less significant byte: `3 + 2*i` (R88). -/
def loOffset (i : Nat) : Byte := BitVec.ofNat 8 (3 + 2 * i)

/-- A value for every channel. -/
def Drive.of (p : Params) (f : Nat → Nat) : Drive := ⟨p.channelNumbers.map f⟩

/-- The value of one channel. -/
def Drive.get (d : Drive) (i : Nat) : Nat := d.values.getD (i - 1) 0

/-- One channel replaced, the others kept. -/
def Drive.set (p : Params) (d : Drive) (i : Nat) (v : Nat) : Drive :=
  Drive.of p fun j => if j = i then v else d.get j

end Sys2Proof.Machine
end

