-- ==== Sys2Proof/Machine/Flags.lean ====
section
/-! DEFINITION. The conditions the block computes: occupancy, full, the sentinel test, the range test, and the derived
functions `occ`, `clamp`, `absdiff` of R12. The one stored flag is `faultUnderrun`, set in Ops.lean (R31, R32). -/

namespace Sys2Proof.Machine

/-- `occ(h, t) = (h − t) mod 2^CW`, the remainder over the integers (R10, R12). -/
def occ (p : Params) (h t : Nat) : Nat := (((h : Int) - t) % (p.counterRange : Int)).toNat

/-- The occupancy as a number: the count of unread bytes (R15). -/
def State.occupancy (s : State) : Nat := occ s.params s.head s.tail

/-- Full: the occupancy is `C` (R26, R31). -/
def State.full (s : State) : Bool := s.occupancy == s.params.capacity

/-- The wait guard on a snapshot: `a < MIN_MSG_SIZE` (R131). -/
def belowGuard (p : Params) (snapshot : Nat) : Bool := snapshot < p.minMsgSize

/-- Both bytes are the sentinel (R132). -/
def isSentinelPair (p : Params) (b0 b1 : Byte) : Bool := b0 == p.sentinel && b1 == p.sentinel

/-- `ADVANCE(n)` would move past `head` (R113). -/
def State.underruns (s : State) (n : Count) : Bool := s.occupancy < n.toNat

/-- The test of OutOfRangeValue, by unsigned comparison (R151, R153). -/
def outOfRange (p : Params) (v : Nat) : Bool := v < p.throttleLo || p.throttleHi < v

/-- `clamp(v)` (R12, R153). -/
def clamp (p : Params) (v : Nat) : Nat :=
  if v < p.throttleLo then p.throttleLo
  else if p.throttleHi < v then p.throttleHi
  else v

/-- `absdiff(a, b)` over the integers (R12, R172). -/
def absdiff (a b : Nat) : Nat :=
  if b ≤ a then a - b else b - a

end Sys2Proof.Machine
end

