-- ==== Sys2Proof/Machine/Ops.lean ====
section
/-! DEFINITION. The named operations over ring storage and the registers: reading and writing storage, the interrupt
and its handler's enqueue, the CONSUMER's accesses, the recoverable conditions, and the one fault (R215). There is no
return from an exception in the block (R198, R220). -/

namespace Sys2Proof.Machine

/-- The byte at a slot; an unlisted slot holds what it held at start-up (R21). -/
def Memory.read : Memory → Nat → Byte
  | [], _ => Config.storageAtReset
  | (x, v) :: m, a => if x = a then v else Memory.read m a

/-- The storage with one slot back at its start-up byte. -/
def Memory.forget (m : Memory) (a : Nat) : Memory := m.filter (fun c => c.1 != a)

/-- The storage with one slot listed at its place in the rising order. -/
def Memory.list : Memory → Nat → Byte → Memory
  | [], a, v => [(a, v)]
  | (x, w) :: m, a, v =>
    if a < x then (a, v) :: (x, w) :: m
    else if a = x then (a, v) :: m
    else (x, w) :: Memory.list m a v

/-- `MemWrite(a, 1, v)` (R11), in canonical form. -/
def Memory.write (m : Memory) (a : Nat) (v : Byte) : Memory :=
  if v = Config.storageAtReset then m.forget a else m.list a v

/-- The canonical form: slots strictly rising, all below `C`, none listed at its start-up byte. -/
abbrev Memory.wf (p : Params) (m : Memory) : Prop :=
  m.Pairwise (fun c d => c.1 < d.1) ∧ ∀ c ∈ m, c.1 < p.capacity ∧ c.2 ≠ Config.storageAtReset

/-- `signal <Condition>(info)`: recorded, nothing else changes (R11). -/
def State.signal (s : State) (c : Condition) : State := { s with conditions := c :: s.conditions }

/-- `PEEK` without an interrupt: the byte at offset `k` from the tail (R112). -/
def State.byteAt (s : State) (k : Nat) : Byte := s.mem.read (s.peekSlot k)

/-- The body of `PUSH(b)` (R110): one indivisible step (R61). -/
def enqueue (b : Byte) (s : State) : State × Result :=
  if s.full then (s.signal (.bufferOverflow b), .overflow)
  else ({ s with mem := s.mem.write s.pushSlot b, head := s.countUp s.head 1 }, .ok)

/-- The bytes of one schedule entry, each by a `PUSH` of its own, one after the other (R217, R222); the handler discards
the results (R192). -/
def deliver : List Byte → State → State
  | [], s => s
  | b :: bs, s => deliver bs (enqueue b s).1

/-- The point before an access of the CONSUMER at which the interrupt may fire (R61, R193): the next schedule entry is
delivered. -/
def State.interrupt (s : State) : State :=
  match s.arrivals with
  | [] => s
  | bs :: rest => deliver bs { s with arrivals := rest }

/-- `AVAILABLE()` (R111): one read of `head`. -/
def readOccupancy (s : State) : State × Nat :=
  (s.interrupt, s.interrupt.occupancy)

/-- `PEEK(k)` (R112): one read of ring storage. -/
def readAhead (k : Byte) (s : State) : State × Byte :=
  (s.interrupt, s.interrupt.byteAt k.toNat)

/-- `raise AdvanceUnderrun(n)` (R113, R215): the sticky bit is set, the condition recorded, and `tail` has no defined
value: a free value is drawn for it (log 7). Nothing else is written; what a raise ends is left to the caller. -/
def State.raiseUnderrun (s : State) (n : Count) : State :=
  { s with
    faultUnderrun := true
    tail := Config.underrunTail s.draws % s.params.counterRange
    draws := s.draws + 1
    conditions := .advanceUnderrun n :: s.conditions }

/-- `tail <- (tail + n) mod 2^CW` (R23). -/
def State.moveTail (s : State) (n : Count) : State := { s with tail := s.countUp s.tail n.toNat }

/-- `ADVANCE(n)` (R113): the test reads `head`, then `tail` is written; an interrupt may fire before either. The Bool
tells whether it went through. -/
def consume (n : Count) (s : State) : State × Bool :=
  if s.interrupt.underruns n then (s.interrupt.raiseUnderrun n, false)
  else (s.interrupt.interrupt.moveTail n, true)

/-- `target[i] <- clamp(v)` with its signal (R151, R213). -/
def State.setTarget (s : State) (i : Nat) (v : Immediate) : State :=
  let u := if outOfRange s.params v.toNat then s.signal (.outOfRangeValue i v) else s
  { u with target := u.target.set s.params i (clamp s.params v.toNat) }

/-- The end of an operation: its result is recorded and the machine goes on. -/
def finish (p : State × Result) : Host.Outcome State Fault Refusal := .next { p.1 with result := p.2 }

end Sys2Proof.Machine
end

