-- ==== Sys2Proof/Machine/RingBuffer.lean ====
section
/-! DEFINITION. The RingBuffer family: PUSH, AVAILABLE, PEEK, ADVANCE (spec/40_ringbuffer.md). -/

namespace Sys2Proof.Machine

/-- `PUSH(b)`, R110. -/
def execPush (b : Byte) (s : State) : Host.Outcome State Fault Refusal := finish (enqueue b s)

/-- `AVAILABLE()`, R111. -/
def execAvailable (s : State) : Host.Outcome State Fault Refusal :=
  finish ((readOccupancy s).1, .count (readOccupancy s).2)

/-- `PEEK(k)`, R112. -/
def execPeek (k : Byte) (s : State) : Host.Outcome State Fault Refusal :=
  finish ((readAhead k s).1, .byte (readAhead k s).2)

/-- `ADVANCE(n)`, R113. -/
def execAdvance (n : Count) (s : State) : Host.Outcome State Fault Refusal :=
  finish ((consume n s).1, if (consume n s).2 then .none else .fault)

end Sys2Proof.Machine
end

