-- ==== Sys2Proof/Machine/ActuationRamp.lean ====
section
/-! DEFINITION. The ActuationRamp family: RAMP_STEP, SINK_WRITE (spec/43_actuationramp.md). -/

namespace Sys2Proof.Machine

/-- One channel's bounded step (R170): strictly more than DELTA away it moves by exactly DELTA, else it snaps. -/
def rampValue (p : Params) (current target : Nat) : Nat :=
  if p.delta < absdiff current target then
    if current < target then current + p.delta else current - p.delta
  else target

/-- The channels, each with its own target (R170 case 5). -/
def rampDrive (p : Params) (current target : Drive) : Drive :=
  Drive.of p fun i => rampValue p (current.get i) (target.get i)

/-- `RAMP_STEP()` (R170). -/
def State.ramp (s : State) : State := { s with current := rampDrive s.params s.current s.target }

/-- `SINK_WRITE()` (R171): one event, unconditionally. -/
def State.emit (s : State) : State := { s with sink := s.current :: s.sink }

/-- `RAMP_STEP()`, R170. -/
def execRampStep (s : State) : Host.Outcome State Fault Refusal := finish (s.ramp, .none)

/-- `SINK_WRITE()`, R171. -/
def execSinkWrite (s : State) : Host.Outcome State Fault Refusal := finish (s.emit, .none)

/-- What the sink holds: the last event, and before the first one a free value (R36, R243, U8; log 18). -/
def State.sinkContent (s : State) : Drive :=
  match s.sink with
  | [] => Drive.of s.params fun i => Config.sinkAtReset i % 2 ^ s.params.valueWidth
  | d :: _ => d

end Sys2Proof.Machine
end

