-- ==== Sys2Proof/Machine/Dispatcher.lean ====
section
/-! DEFINITION. The Dispatcher family: DISPATCH, SET_THROTTLE, CMD_RESERVED (spec/42_dispatcher.md). -/

namespace Sys2Proof.Machine

/-- One turn of `SET_THROTTLE`'s loop (R151): the channel's two bytes are read, high then low, and its target written. -/
def readTarget (i : Nat) (s : State) : State :=
  let hi := readAhead (hiOffset i) s
  let lo := readAhead (loOffset i) hi.1
  lo.1.setTarget i (u16be hi.2 lo.2)

/-- The turns of the loop for the channels listed, in their order. -/
def readTargets : List Nat → State → State
  | [], s => s
  | i :: is, s => readTargets is (readTarget i s)

/-- `SET_THROTTLE` on the frame at the tail (R151): channels 1, 2, 3 and so on to `NCH`, in this order. -/
def readThrottle (s : State) : State := readTargets s.params.channelNumbers s

/-- `CMD_RESERVED` (R152): nothing but the signal. -/
def ignoreCommand (cmd : Byte) (s : State) : State := s.signal (.unknownCommand cmd)

/-- `DISPATCH()` (R150): `cmd` selects, `len` is not read. -/
def interpretFrame (s : State) : State :=
  let cmd := readAhead 3 s
  if cmd.2 = s.params.cmdSetThrottle then readThrottle cmd.1 else ignoreCommand cmd.2 cmd.1

/-- `SET_THROTTLE` with its immediates already assembled, those of channel `i` on (R88, R151). -/
def applyTargets (i : Nat) : List Immediate → State → State
  | [], s => s
  | v :: vs, s => applyTargets (i + 1) vs (s.setTarget i v)

/-- `DISPATCH()`, R150. -/
def execDispatch (s : State) : Host.Outcome State Fault Refusal := finish (interpretFrame s, .none)

/-- `SET_THROTTLE`, R151: `len` changes nothing here (R85, R151 case 5). -/
def execSetThrottle (_len : Byte) (v1 v2 : Immediate) (vs : List Immediate) (s : State) : Host.Outcome State Fault Refusal :=
  finish (applyTargets 1 (v1 :: v2 :: vs) s, .none)

/-- `CMD_RESERVED`, R152: the payload and `len` are not inspected. -/
def execCmdReserved (_len cmd : Byte) (s : State) : Host.Outcome State Fault Refusal :=
  finish (ignoreCommand cmd s, .none)

end Sys2Proof.Machine
end

