-- ==== Sys2Proof/Machine/FrameScanner.lean ====
section
/-! DEFINITION. The FrameScanner family: SCAN, RESYNC_BYTE, and the scanner's three named states
(spec/41_framescanner.md). -/

namespace Sys2Proof.Machine

/-- The result of a branch that ends in `ADVANCE`: its outcome, or FAULT if the advance raised (R130). -/
def advanceOr (o : ScanOutcome) (p : State × Bool) : State × Result :=
  (p.1, if p.2 then .outcome o else .fault)

/-- The resynchronization branch (R133): signal, then exactly one byte consumed. -/
def resync (b0 b1 : Byte) (s : State) : State × Result :=
  advanceOr .resync (consume 1 (s.signal (.frameMisalignment b0 b1)))

/-- The located-frame branch (R132): DISPATCH, then the length byte, then `ADVANCE(2 + len)`. -/
def takeFrame (s : State) : State × Result :=
  let len := readAhead 2 (interpretFrame s)
  advanceOr .dispatched (consume (frameAdvance len.2) len.1)

/-- What a pass does once its snapshot has passed the guard (R130, R94): the two bytes at the tail are read and one of
the two advancing branches taken. -/
def inspect (s : State) : State × Result :=
  let b0 := readAhead 0 s
  let b1 := readAhead 1 b0.1
  if isSentinelPair s.params b0.2 b1.2 then takeFrame b1.1 else resync b0.2 b1.2 b1.1

/-- `SCAN()` (R130): one snapshot, one guard, at most one branch (R134). -/
def scanPass (s : State) : State × Result :=
  let snap := readOccupancy s
  if belowGuard s.params snap.2 then (snap.1, .outcome .wait) else inspect snap.1

/-- `SCAN()`, R130. -/
def execScan (s : State) : Host.Outcome State Fault Refusal := finish (scanPass s)

/-- `RESYNC_BYTE`, R133. -/
def execResyncByte (b0 b1 : Byte) (s : State) : Host.Outcome State Fault Refusal := finish (resync b0 b1 s)

/-- The source's names for points within a pass; not stored (R35, R135). -/
inductive ScannerLabel where
  | seekSync | haveSync | dispatched
  deriving DecidableEq, Repr

/-- Where the scanner stands when a pass has ended with a result (R135): after WAIT and RESYNC in SEEK_SYNC, after a
completed dispatch in DISPATCHED, and in HAVE_SYNC if the frame's `ADVANCE` was not done. -/
def scannerLabel : Result → ScannerLabel
  | .outcome .dispatched => .dispatched
  | .fault => .haveSync
  | _ => .seekSync

end Sys2Proof.Machine
end

