-- ==== Sys2Proof/Machine/Tick.lean ====
section
/-! DEFINITION. The system-level operation TICK (spec/44_tick_and_agents.md). -/

namespace Sys2Proof.Machine

/-- What follows the scan in a tick (R190): the ramp and the sink write, unless the scan raised AdvanceUnderrun, which
ends the tick there (R215). -/
def actuate (p : State × Result) : State × Result :=
  match p.2 with
  | .fault => p
  | _ => (p.1.ramp.emit, p.2)

/-- `TICK()`, R190: SCAN, RAMP_STEP, SINK_WRITE. The sensor call stands in no rule's way and is omitted (R191). -/
def execTick (s : State) : Host.Outcome State Fault Refusal := finish (actuate (scanPass s))

end Sys2Proof.Machine
end

