-- ==== Sys2Proof/Machine/Dispatch.lean ====
section
/-! DEFINITION. The dispatch of an instruction to its meaning: one arm per constructor. -/

namespace Sys2Proof.Machine

def exec (i : Instr) (s : State) : Host.Outcome State Fault Refusal :=
  match i with
  | .push b => Sys2Proof.Machine.execPush b s
  | .available => Sys2Proof.Machine.execAvailable s
  | .peek k => Sys2Proof.Machine.execPeek k s
  | .advance n => Sys2Proof.Machine.execAdvance n s
  | .scan => Sys2Proof.Machine.execScan s
  | .dispatch => Sys2Proof.Machine.execDispatch s
  | .rampStep => Sys2Proof.Machine.execRampStep s
  | .sinkWrite => Sys2Proof.Machine.execSinkWrite s
  | .tick => Sys2Proof.Machine.execTick s
  | .setThrottle len v1 v2 vs => Sys2Proof.Machine.execSetThrottle len v1 v2 vs s
  | .cmdReserved len cmd => Sys2Proof.Machine.execCmdReserved len cmd s
  | .resyncByte b0 b1 => Sys2Proof.Machine.execResyncByte b0 b1 s

end Sys2Proof.Machine
end

