-- ==== Sys2Proof/Machine/Fetch.lean ====
section
/-! DEFINITION. Which operation is performed next: the request an agent has made, or the CONSUMER's tick. The block
fetches no program (R24, R241); logs 1, 2, 3. -/

namespace Sys2Proof.Machine

/-- What the machine does next. -/
inductive Fetched where
  /-- The instruction, and the state with its request taken. -/
  | instr (i : Instr) (s : State)
  /-- A frame was asked for and the guard holds it back (R131): nothing is decoded. -/
  | wait (s : State)
  /-- The request has no meaning. -/
  | rejected (r : Refusal)
  deriving DecidableEq, Repr

/-- The context a port belongs to (the agent column of the opcode table; R117, R225). -/
def portOwner : Port → Agent
  | .push => .producer
  | .available => .consumer
  | .peek => .consumer
  | .advance => .consumer
  | .scan => .consumer
  | .dispatch => .consumer
  | .rampStep => .consumer
  | .sinkWrite => .consumer
  | .tick => .consumer

/-- The bytes at the tail, ten at the NCH of R7: as many as the longest command reads (R84, R90). -/
def State.window (s : State) : List Byte := (List.range s.params.frameBytes).map s.byteAt

/-- An encoding decoded, or refused by name. -/
def fetchDecoded (e : Encoded) (s : State) : Fetched :=
  match decode s.params e with
  | .ok i => .instr i s
  | .error err => .rejected (.badRequest err)

/-- With no request pending the CONSUMER ticks (R190, R241). A call is decoded if its agent owns the port (R117). A frame
is decoded from the bytes at the tail if at least MIN_MSG_SIZE are unread (R131), and otherwise waits. -/
def fetch (s : State) : Fetched :=
  match s.requests with
  | [] => .instr .tick s
  | .call a p w :: rest =>
    if portOwner p = a then fetchDecoded (.port p w) { s with requests := rest }
    else .rejected (.ownershipBroken a p)
  | .frame :: rest =>
    if belowGuard s.params s.occupancy then .wait { s with requests := rest }
    else fetchDecoded (.wire s.window) { s with requests := rest }

/-- Bytes stored one after the other from offset `k` of the tail on. -/
def State.storeFrom (s : State) (k : Nat) : List Byte → State
  | [] => s
  | b :: bs => State.storeFrom { s with mem := s.mem.write (s.peekSlot k) b } (k + 1) bs

/-- An encoding placed where the next fetch finds it: a request word as its port's owner's next call; the bytes of a
frame as the first unread bytes, asked for as the next frame. -/
def State.place (s : State) : Encoded → State
  | .port p w => { s with requests := .call (portOwner p) p w :: s.requests }
  | .wire bs =>
    { s.storeFrom 0 bs with
      head := s.countUp s.tail bs.length
      requests := .frame :: s.requests }

end Sys2Proof.Machine
end

