-- ==== Sys2Proof/Machine/Step.lean ====
section
/-! DEFINITION. One step of the machine. -/

namespace Sys2Proof.Machine

/-- One step: a faulted execution goes no further (R32, R215); otherwise the instruction fetched is executed. A frame held
back by the guard is the outcome WAIT (R131). -/
def step (s : State) : Host.Outcome State Fault Refusal :=
  if s.faultUnderrun then .fault .executionFaulted
  else
    match fetch s with
    | .instr i t => exec i t
    | .wait t => finish (t, .outcome .wait)
    | .rejected r => .refused r

/-- The state with the instruction of a table word placed where `step` fetches next. -/
def State.withFetchWord (s : State) (nbits w : Nat) : State := s.place (tableEncoded s.params nbits w)

end Sys2Proof.Machine
end

