-- ==== Sys2Proof/Machine/Run.lean ====
section
/-! DEFINITION. The agents' steps, their schedules and the runs without end (R190 to R197, decision D14). -/

namespace Sys2Proof.Machine

/-- One step of an agent. -/
inductive AgentStep where
  /-- PRODUCER pushes a byte that the HOST has sent (R192). -/
  | push (b : Byte)
  /-- CONSUMER ticks (R190), and the bytes of one entry arrive before each of its accesses (R193). -/
  | tick (arrivals : List (List Byte))
  deriving DecidableEq, Repr

/-- Whose step it is. -/
def AgentStep.agent : AgentStep → Agent
  | .push _ => .producer
  | .tick _ => .consumer

/-- The state with the one thing asked for that the agent whose turn it is does next: PRODUCER calls `PUSH`, CONSUMER calls
nothing and so ticks, with the interrupts that fall into its tick. -/
def State.turn (s : State) : AgentStep → State
  | .push b => State.place { s with requests := [] } (encode s.params (.push b))
  | .tick arrivals => { s with requests := [], arrivals := arrivals }

/-- Which agent steps when, and with which bytes: a parameter of the step relation, not state (R36, R193). -/
abbrev Schedule := Nat → AgentStep

/-- A run without end under a schedule (R197). A step after AdvanceUnderrun has no meaning (R215), so the states of a run are
fault-free. -/
def Schedule.Runs (σ : Schedule) (r : Nat → State) : Prop :=
  ∀ n, step ((r n).turn (σ n)) = .next (r (n + 1))

/-- CONSUMER is weakly fair: it ticks again and again. A tick is always enabled (R190 case 2), so weak fairness is that it
takes a step after every moment. PRODUCER has no fairness: the HOST may stop sending (R196, decision D14). -/
def Schedule.Fair (σ : Schedule) : Prop :=
  ∀ n, ∃ m, n ≤ m ∧ (σ m).agent = .consumer

end Sys2Proof.Machine
end

