-- ==== Sys2Proof/Machine/Trace.lean ====
section
/-! DEFINITION. The trace lines of the spec's textual notation (R95). -/

namespace Sys2Proof.Machine

/-- One line of a trace: an operation of one of the two agents and the result written after its arrow (R95). -/
inductive TraceLine where
  /-- `push XX -> Ok` or `push XX -> Overflow`. -/
  | push (b : Byte) (r : Result)
  /-- `tick -> WAIT`, `RESYNC`, `DISPATCHED` or `FAULT`. -/
  | tick (r : Result)
  deriving DecidableEq, Repr

/-- The operation of a line. -/
def TraceLine.instr : TraceLine → Instr
  | .push b _ => .push b
  | .tick _ => .tick

/-- The result a line claims. -/
def TraceLine.claimed : TraceLine → Result
  | .push _ r => r
  | .tick r => r

/-- The state after a trace, if every line answers what it claims, in the order of the lines (R95). -/
def runTrace : List TraceLine → State → Option State
  | [], s => some s
  | l :: ls, s =>
    match exec l.instr s with
    | .next t => if t.result = l.claimed then runTrace ls t else none
    | .fault _ => none
    | .refused _ => none

end Sys2Proof.Machine
end

