-- ==== Sys2Proof/Safety.lean ====
section
/-! DEFINITION. What counts as a safe run, and the words the statements are made of: fault-free states, the invariants of
R26 and R30, the unread bytes, the frame alignment of R256. -/

namespace Sys2Proof

/-- The parameters that the spec does not leave OPEN have the values R7 gives; CW, MIN_MSG_SIZE and NEUTRAL have any. -/
abbrev Params.AsGiven (p : Params) : Prop :=
  p.capacity = 256 ∧ p.indexWidth = 8 ∧ p.sentinel = 0xFF ∧ p.cmdSetThrottle = 0x01 ∧ p.channels = 3 ∧
    p.valueWidth = 16 ∧ p.throttleLo = 3000 ∧ p.throttleHi = 6000 ∧ p.delta = 450

end Sys2Proof

namespace Sys2Proof.Machine

/-- A state about which a claim may be made: "every claim takes `fault_underrun = 0` as a premise" (R215). -/
def State.faultFree (s : State) : Bool := !s.faultUnderrun

/-- The occupancy bound of R26. -/
def State.ringBound (s : State) : Bool := s.occupancy ≤ s.params.capacity

/-- A drive value within the actuator's scale, both ends included (R30). -/
def inScale (p : Params) (v : Nat) : Bool := p.throttleLo ≤ v && v ≤ p.throttleHi

/-- One value for each channel, all within the scale (R30, R171 case 2), and so of `VALW` bits (R7, R28, R29). -/
def Drive.inScale (p : Params) (d : Drive) : Bool :=
  d.values.length == p.channels && d.values.all (Machine.inScale p)

/-- `head` and `tail` are numbers of `CW` bits (R20, R22, R23). -/
def State.countersFit (s : State) : Bool := s.head < s.params.counterRange && s.tail < s.params.counterRange

/-- The invariant of the block: canonical storage, counters of `CW` bits, the occupancy bound of R26 while no fault was taken,
the throttle state of R30, and every event the sink received within its input range (R171 case 2). -/
def State.Inv (s : State) : Prop :=
  s.mem.wf s.params ∧ s.countersFit = true ∧ (s.faultUnderrun = false → s.ringBound = true) ∧
    s.target.inScale s.params = true ∧ s.current.inScale s.params = true ∧ ∀ d ∈ s.sink, d.inScale s.params = true

/-- The unread bytes, oldest first (R15, R52). -/
def State.unread (s : State) : List Byte := (List.range s.occupancy).map s.byteAt

/-- The unread bytes followed by those the interrupt has still to deliver inside the CONSUMER's operations. -/
def State.stream (s : State) : List Byte := s.unread ++ s.arrivals.flatten

/-- The snapshot of a pass locates a frame: the guard passed and the sentinel pair stands at the tail (R131, R132). -/
def State.locates (s : State) : Bool :=
  !belowGuard s.params s.occupancy && isSentinelPair s.params (s.byteAt 0) (s.byteAt 1)

/-- A well-formed frame whose last byte is not SENTINEL (R256 premise P1). -/
def CleanFrame (p : Params) (f : List Byte) : Prop :=
  ∃ cmd data, data.length < 255 ∧ f = frameBytes p cmd data ∧ f.getLast? ≠ some p.sentinel

/-- A stream that stands on a frame start, or on one residual byte followed by a frame start (R256). -/
def Aligned (p : Params) (bytes : List Byte) : Prop :=
  ∃ residual frames, bytes = residual ++ List.flatten frames ∧
    (residual = [] ∨ ∃ x, residual = [x] ∧ x ≠ p.sentinel) ∧ ∀ f ∈ frames, CleanFrame p f

/-- The six fields of R20 are the same. -/
def SameBlock (s t : State) : Prop :=
  t.mem = s.mem ∧ t.head = s.head ∧ t.tail = s.tail ∧ t.target = s.target ∧ t.current = s.current ∧
    t.faultUnderrun = s.faultUnderrun

/-- Storage and `head` are the same: all that a `PUSH` can change of the six fields (R25). -/
def SameStorage (s t : State) : Prop := t.mem = s.mem ∧ t.head = s.head

/-- The access at which a pass that locates a frame tests the occupancy for its `ADVANCE`, counting the pass's accesses to
shared state from 1: `head`, offsets 0 and 1, `cmd`, two value bytes for each channel if `cmd` is CMD_SET_THROTTLE, `len`,
then `head` again (R94, R130, R150, R151): the twelfth access or the sixth at the NCH of R7. -/
def State.advanceAccess (s : State) : Nat :=
  if s.interrupt.byteAt 3 = s.params.cmdSetThrottle then 6 + 2 * s.params.channels else 6

/-- The target that the frame at the tail holds for channel `i`: its big-endian value, saturated (R88, R151). -/
def State.frameTarget (s : State) (i : Nat) : Nat :=
  clamp s.params (u16be (s.byteAt (2 + 2 * i)) (s.byteAt (3 + 2 * i))).toNat

/-- The same with each of the two bytes as storage holds it at its own read, where `j` accesses come before the value bytes
are read, high then low, channel 1 first (R64, R151, R193). -/
def State.racingTarget (s : State) (j i : Nat) : Nat :=
  clamp s.params (u16be ((State.interrupt^[j + 2 * i - 1] s).byteAt (2 + 2 * i))
    ((State.interrupt^[j + 2 * i] s).byteAt (3 + 2 * i))).toNat

/-- The same bytes pushed and consumed, in counters that may differ in their width; everything else the same (R27). -/
def State.SameButWidth (s t : State) : Prop :=
  ∃ pushed consumed : Nat, consumed ≤ pushed ∧ pushed ≤ consumed + s.params.capacity ∧
    s.head = pushed % s.params.counterRange ∧ s.tail = consumed % s.params.counterRange ∧
    t.head = pushed % t.params.counterRange ∧ t.tail = consumed % t.params.counterRange ∧
    (∃ (w : Nat) (h : s.params.indexWidth < w),
      t.params = { s.params with counterWidth := w, counterWidth_gt := h }) ∧
    t = { s with head := t.head, tail := t.tail, params := t.params }

/-- The condition is one of the interrupt handler's (EC1); all others are met by the CONSUMER (R210). -/
def Condition.fromInterrupt : Condition → Bool
  | .bufferOverflow _ => true
  | .frameMisalignment _ _ => false
  | .outOfRangeValue _ _ => false
  | .unknownCommand _ => false
  | .advanceUnderrun _ => false

/-- The conditions the CONSUMER has met, newest first. -/
def State.consumerConditions (s : State) : List Condition := s.conditions.filter (fun c => !c.fromInterrupt)

/-- Instructions performed one after the other, stopping where one stops. -/
def execEach : List Instr → State → Host.Outcome State Fault Refusal
  | [], s => .next s
  | i :: is, s =>
    match exec i s with
    | .next t => execEach is t
    | .fault f => .fault f
    | .refused r => .refused r

end Sys2Proof.Machine
end

