-- ==== Sys2Proof/Certificates/Slice0/Obligations.lean ====
section
/-! DEFINITION. The statements about the block, each with the rules of spec/ it formalises. In a statement under an
interrupt schedule, `s.interrupt` is `s` after the pushes that arrive before the operation's first access (R193): the
state at the snapshot of a pass, and `State.interrupt^[j] s` is `s` after those before its first `j` accesses. A parameter
of R7 stands under its name as a field of `s.params`, and `2^CW` is `s.params.counterRange`: a statement holds at every
value of the parameters that R7 admits, and one that speaks of the spec's literals has the values R7 gives as a premise,
`AsGiven`. -/

open Sys2Proof Sys2Proof.Machine

/-! ### Encodings -/

/-- R83, R84, R93: every well-formed instruction is what its own encoding decodes to, at every value of every operand. -/
def Obligations.EncodedInstructionDecodesToItself : Prop :=
  ∀ (p : Params) (i : Instr), i.wf p = true → decode p (encode p i) = .ok i

/-- R93, R81, R90: what the decoder accepts is well-formed and is the encoding of exactly what it decodes to: a request word
bit for bit, a frame up to the bytes that follow the ones it reads. -/
def Obligations.DecodedEncodingEncodesBack : Prop :=
  ∀ p : Params,
    (∀ q w i, decode p (.port q w) = .ok i → i.wf p = true ∧ encode p i = .port q w) ∧
    ∀ bytes i, decode p (.wire bytes) = .ok i →
      i.wf p = true ∧ ∃ read rest, encode p i = .wire read ∧ bytes = read ++ rest

/-- R93: a word is a request on a port if and only if its highest 1 stands just above the port's operand bits. -/
def Obligations.RequestWordsAreStrobeAndOperands : Prop :=
  ∀ (p : Params) (q : Port) (w : Word), (∃ i, decode p (.port q w) = .ok i) ↔
    2 ^ q.operandBits ≤ w.toNat ∧ w.toNat < 2 ^ (q.operandBits + 1)

/-- R90, the outcomes once a window of the stream stands at the tail (ten bytes at the NCH of R7): three, exhaustive, told
apart by the bytes at offsets 0, 1 and 3; none is illegal. -/
def Obligations.EveryWindowDecodesToOneOutcome : Prop :=
  ∀ (p : Params) (b0 b1 len cmd : Byte) (payload : List Byte), payload.length = 2 * p.channels →
    (b0 = p.sentinel → b1 = p.sentinel → cmd = p.cmdSetThrottle →
      ∃ v1 v2 vs, decode p (.wire (b0 :: b1 :: len :: cmd :: payload)) = .ok (.setThrottle len v1 v2 vs) ∧
        (v1 :: v2 :: vs).length = p.channels ∧
        ∀ i ∈ p.channelNumbers, ∃ hi lo, payload[2 * (i - 1)]? = some hi ∧ payload[2 * (i - 1) + 1]? = some lo ∧
          (v1 :: v2 :: vs)[i - 1]? = some (BitVec.ofNat 16 (hi.toNat * 256 + lo.toNat))) ∧
    (b0 = p.sentinel → b1 = p.sentinel → cmd ≠ p.cmdSetThrottle →
      decode p (.wire (b0 :: b1 :: len :: cmd :: payload)) = .ok (.cmdReserved len cmd)) ∧
    (¬(b0 = p.sentinel ∧ b1 = p.sentinel) →
      decode p (.wire (b0 :: b1 :: len :: cmd :: payload)) = .ok (.resyncByte b0 b1))

/-- R89, the command map, complete: whatever the length byte and the payload are. -/
def Obligations.CommandIdentifierAloneSelectsCommand : Prop :=
  ∀ p : Params, p.AsGiven → ∀ (len cmd : Byte) (payload : List Byte), 6 ≤ payload.length →
    (cmd = 0x01 → ∃ v1 v2 v3,
      decode p (.wire (0xFF :: 0xFF :: len :: cmd :: payload)) = .ok (.setThrottle len v1 v2 [v3])) ∧
    (cmd ≠ 0x01 → decode p (.wire (0xFF :: 0xFF :: len :: cmd :: payload)) = .ok (.cmdReserved len cmd))

/-- Words and frames written out from the spec's encodings (R84, R93, R96; 95_test_vectors.md DP5, T7, SC4) decode to the
instructions they stand for. -/
def Obligations.SpecEncodingsDecodeAsWritten : Prop :=
  decode .default (.port .push 0b1_10101011) = .ok (.push 0xAB) ∧
  decode .default (.port .peek 0b1_00000111) = .ok (.peek 7) ∧
  decode .default (.port .advance 0b1_100000001) = .ok (.advance 257) ∧
  decode .default (.port .tick 0b1) = .ok .tick ∧
  decode .default (.wire [0xFF, 0xFF, 0x07, 0x01, 0x13, 0x88, 0x0D, 0xAC, 0x27, 0x0F]) = .ok (.setThrottle 7 5000 3500 [9999]) ∧
  decode .default (.wire [0xFF, 0xFF, 0x07, 0x02, 0x17, 0x70, 0x17, 0x70, 0x17, 0x70]) = .ok (.cmdReserved 7 2) ∧
  decode .default (.wire [0xFF, 0x00, 0xFF, 0xFF, 0x07, 0x01]) = .ok (.resyncByte 0xFF 0x00)

/-! ### Reset and the step -/

/-- R37, R240: the state after start-up at any parameters, and at the values of R7. The counters' zero and NEUTRAL = 4500 are
the spec's own decisions D2 and D3 (logs 15, 16). -/
def Obligations.ResetIsStartupState : Prop :=
  (∀ p : Params, (∀ a, (State.startup p).mem.read a = 0x00) ∧ (State.startup p).head = 0 ∧ (State.startup p).tail = 0 ∧
    (State.startup p).occupancy = 0 ∧ (State.startup p).target.values = List.replicate p.channels p.neutral ∧
    (State.startup p).current.values = List.replicate p.channels p.neutral ∧
    (State.startup p).faultUnderrun = false ∧ (State.startup p).params = p) ∧
  State.reset = State.startup Params.default ∧ State.reset.target = ⟨[4500, 4500, 4500]⟩ ∧
    State.reset.current = ⟨[4500, 4500, 4500]⟩ ∧ State.reset.params.AsGiven ∧
    State.reset.params.counterRange = 512 ∧ State.reset.params.minMsgSize = 6

/-- R190, R241, R93, R90: with no request pending a step is a tick; a request of the port's own agent is executed as its
word decodes; a frame asked for is executed as the bytes at the tail decode, ten at the NCH of R7, once MIN_MSG_SIZE are
unread. The request queue is the model's (logs 1, 3). -/
def Obligations.StepExecutesWhatIsFetched : Prop :=
  ∀ s : State, s.faultUnderrun = false →
    (s.requests = [] → step s = exec .tick s) ∧
    (∀ p w rest i, s.requests = .call (portOwner p) p w :: rest → decode s.params (.port p w) = .ok i →
      step s = exec i { s with requests := rest }) ∧
    (∀ rest i, s.requests = .frame :: rest → s.params.minMsgSize ≤ s.occupancy →
      decode s.params (.wire ((List.range s.params.frameBytes).map fun k =>
        s.mem.read ((s.tail + k) % s.params.capacity))) = .ok i →
      step s = exec i { s with requests := rest })

/-- R215, R117, R93, R131: where a step stops or holds back, and that it stops nowhere else. After the underrun fault it stops;
an operation asked for by the other agent and a word that is no request are refused by name; a frame asked for below the
guard is a WAIT. The stops are the model's treatment of U1, U9 (logs 8, 10, 11), the WAIT of a frame request is the
model's (log 22). -/
def Obligations.StepStopsOnlyByName : Prop :=
  ∀ s : State,
    (s.faultUnderrun = true → step s = .fault .executionFaulted) ∧
    (s.faultUnderrun = false → ∀ a p w rest, s.requests = .call a p w :: rest →
      (a ≠ portOwner p → step s = .refused (.ownershipBroken a p)) ∧
      (∀ e, a = portOwner p → decode s.params (.port p w) = .error e → step s = .refused (.badRequest e))) ∧
    (s.faultUnderrun = false → ∀ rest, s.requests = .frame :: rest → s.occupancy < s.params.minMsgSize →
      step s = .next { s with requests := rest, result := .outcome .wait }) ∧
    (∀ f, step s = .fault f → s.faultUnderrun = true) ∧
    (∀ r, step s = .refused r → s.faultUnderrun = false ∧ ∃ a p w rest, s.requests = .call a p w :: rest ∧
      ((a ≠ portOwner p ∧ r = .ownershipBroken a p) ∨
        (a = portOwner p ∧ ∃ e, decode s.params (.port p w) = .error e ∧ r = .badRequest e)))

/-- Placing the encoding of a port operation makes the very next step execute it on the state as it was (log 1). -/
def Obligations.PlacedRequestIsExecutedNext : Prop :=
  ∀ (i : Instr) (p : Port) (w : Word) (s : State), s.faultUnderrun = false → encode s.params i = .port p w →
    step (s.place (encode s.params i)) = exec i s

/-! ### RingBuffer -/

/-- R110, R22, R51, R115: a `PUSH` into a buffer that is not full stores the byte at `head mod C`, counts `head` up modulo
`2^CW`, answers Ok, and leaves everything else as it was. -/
def Obligations.PushStoresByteAndCountsHead : Prop :=
  ∀ (b : Byte) (s : State), s.occupancy ≠ s.params.capacity → ∃ t, exec (.push b) s = .next t ∧
    t.head = (s.head + 1) % s.params.counterRange ∧
    (∀ a, t.mem.read a = if a = s.head % s.params.capacity then b else s.mem.read a) ∧
    t.result = .ok ∧ t.tail = s.tail ∧ t.target = s.target ∧ t.current = s.current ∧
    t.faultUnderrun = s.faultUnderrun ∧ t.sink = s.sink ∧ t.conditions = s.conditions ∧
    t.arrivals = s.arrivals ∧ t.requests = s.requests ∧ t.draws = s.draws

/-- R110 case 2, R211, R116 (2): a `PUSH` into a full buffer answers Overflow, signals BufferOverflow, and changes no state: no
byte read by `PEEK` differs. -/
def Obligations.PushIntoFullBufferChangesNothing : Prop :=
  ∀ (b : Byte) (s : State), s.occupancy = s.params.capacity → ∃ t, exec (.push b) s = .next t ∧
    t.result = .overflow ∧ SameBlock s t ∧ t.conditions = .bufferOverflow b :: s.conditions ∧
    (∀ k, t.byteAt k = s.byteAt k) ∧ t.sink = s.sink ∧ t.arrivals = s.arrivals

/-- R111, R26: `AVAILABLE` answers `(head − tail) mod 2^CW` with `head` as the interrupts before it left it, a count no smaller
than the occupancy at its start and no greater than `C`, and writes nothing. -/
def Obligations.AvailableCountsUnreadBytes : Prop :=
  ∀ s : State, ∃ t n, exec .available s = .next t ∧ t.result = .count n ∧
    (n : Int) = ((s.interrupt.head : Int) - s.tail) % s.params.counterRange ∧
    (s.occupancy ≤ s.params.capacity → s.occupancy ≤ n ∧ n ≤ s.params.capacity) ∧
    SameBlock s.interrupt t ∧ t.tail = s.tail ∧ t.target = s.target ∧ t.current = s.current ∧
    t.faultUnderrun = s.faultUnderrun ∧ t.sink = s.sink ∧ t.consumerConditions = s.consumerConditions ∧
    (s.arrivals = [] → SameBlock s t ∧ ∀ a, t.mem.read a = s.mem.read a)

/-- R112, R51: `PEEK(k)` answers the byte at `(tail + k) mod C`, at any offset; an offset below the occupancy gives the
unread byte whatever arrives meanwhile (R63); nothing is written. -/
def Obligations.PeekReadsAheadOfTail : Prop :=
  ∀ (k : Byte) (s : State), ∃ t b, exec (.peek k) s = .next t ∧ t.result = .byte b ∧
    b = s.interrupt.mem.read ((s.tail + k.toNat) % s.params.capacity) ∧
    (s.occupancy ≤ s.params.capacity → k.toNat < s.occupancy → b = s.mem.read ((s.tail + k.toNat) % s.params.capacity)) ∧
    SameBlock s.interrupt t ∧ t.tail = s.tail ∧ t.target = s.target ∧ t.current = s.current ∧
    t.faultUnderrun = s.faultUnderrun ∧ t.sink = s.sink ∧ t.consumerConditions = s.consumerConditions ∧
    (s.arrivals = [] → SameBlock s t ∧ ∀ a, t.mem.read a = s.mem.read a)

/-- R113, R23, R115: an `ADVANCE(n)` within the occupancy at its test moves `tail` by `n` modulo `2^CW` and leaves everything
else to the interrupts before its two accesses; the occupancy falls by `n` when none fires. -/
def Obligations.AdvanceMovesTail : Prop :=
  ∀ (n : Count) (s : State), n.toNat ≤ s.interrupt.occupancy → ∃ t, exec (.advance n) s = .next t ∧
    t.tail = (s.tail + n.toNat) % s.params.counterRange ∧ t.result = .none ∧
    SameStorage (State.interrupt^[2] s) t ∧ t.target = s.target ∧ t.current = s.current ∧
    t.faultUnderrun = s.faultUnderrun ∧ t.sink = s.sink ∧ t.consumerConditions = s.consumerConditions ∧
    (s.arrivals = [] → t.occupancy = s.occupancy - n.toNat ∧ t.head = s.head ∧ ∀ a, t.mem.read a = s.mem.read a)

/-- R113, R215, decision D4: an `ADVANCE(n)` above the occupancy at its test takes AdvanceUnderrun: the sticky bit is set and
nothing is written but the bit and `tail`, of which nothing is said (the spec gives it no value; log 6). -/
def Obligations.AdvancePastHeadTakesUnderrun : Prop :=
  ∀ (n : Count) (s : State), s.interrupt.occupancy < n.toNat → ∃ t, exec (.advance n) s = .next t ∧
    t.faultUnderrun = true ∧ t.result = .fault ∧
    t.consumerConditions = .advanceUnderrun n :: s.consumerConditions ∧ t.target = s.target ∧
    t.current = s.current ∧ t.sink = s.sink ∧ t.head = s.interrupt.head ∧
    (∀ a, t.mem.read a = s.interrupt.mem.read a) ∧
    (s.arrivals = [] → t.head = s.head ∧ ∀ a, t.mem.read a = s.mem.read a)

/-- R52, R65, R110 to R113, R116: seen through its unread bytes the RingBuffer is a first-in first-out queue of at most `C`
bytes, and stays one. -/
def Obligations.RingBufferRefinesByteQueue : Prop :=
  ∀ s : State, s.occupancy ≤ s.params.capacity → s.arrivals = [] →
    (∀ b, ∃ t, exec (.push b) s = .next t ∧ t.occupancy ≤ s.params.capacity ∧ t.arrivals = [] ∧
      (s.unread.length < s.params.capacity → t.unread = s.unread ++ [b] ∧ t.result = .ok) ∧
      (s.unread.length = s.params.capacity → t.unread = s.unread ∧ t.result = .overflow)) ∧
    (∃ t, exec .available s = .next t ∧ t.occupancy ≤ s.params.capacity ∧ t.arrivals = [] ∧ t.result = .count s.unread.length ∧
      t.unread = s.unread) ∧
    (∀ k : Byte, k.toNat < s.unread.length → ∃ t b, exec (.peek k) s = .next t ∧ t.occupancy ≤ s.params.capacity ∧
      t.arrivals = [] ∧ t.result = .byte b ∧ s.unread[k.toNat]? = some b ∧ t.unread = s.unread) ∧
    (∀ n : Count, n.toNat ≤ s.unread.length → ∃ t, exec (.advance n) s = .next t ∧ t.occupancy ≤ s.params.capacity ∧
      t.arrivals = [] ∧ t.result = .none ∧ t.unread = s.unread.drop n.toNat)

/-- R65, R116 (1): pushes that fit are all answered Ok, and the bytes stand in the buffer behind the unread ones in the order
they were pushed, with `head` counted up by their number. -/
def Obligations.PushesThatFitQueueInOrder : Prop :=
  ∀ (bs : List Byte) (s : State), s.occupancy + bs.length ≤ s.params.capacity →
    ∃ t, runTrace (bs.map fun b => .push b .ok) s = some t ∧ t.unread = s.unread ++ bs ∧
      t.occupancy = s.occupancy + bs.length ∧ t.tail = s.tail ∧
      (s.head < s.params.counterRange → t.head = (s.head + bs.length) % s.params.counterRange)

/-- R62: after an `AVAILABLE` that answered `n`, every `PEEK(k)` with `k < n` answers the byte that stood there at the
`AVAILABLE`, whatever arrives before the read, with any number of other reads and of pushes between the two. -/
def Obligations.CountedBytesAreReadAsPublished : Prop :=
  ∀ s : State, s.occupancy ≤ s.params.capacity → ∃ t n, exec .available s = .next t ∧ t.result = .count n ∧
    ∀ between : List Instr, (∀ i ∈ between, i = .available ∨ (∃ j, i = .peek j) ∨ ∃ b, i = .push b) →
      ∃ u, execEach between t = .next u ∧ ∀ k : Byte, k.toNat < n → ∃ v, exec (.peek k) u = .next v ∧
        v.result = .byte (t.mem.read ((t.tail + k.toNat) % s.params.capacity))

/-- R27, R65: the counters of `CW` bits behave as unbounded counts of bytes pushed and consumed. -/
def Obligations.CountersFollowUnboundedCounts : Prop :=
  ∀ (pushed consumed : Nat) (s : State), consumed ≤ pushed → pushed ≤ consumed + s.params.capacity →
    s.head = pushed % s.params.counterRange → s.tail = consumed % s.params.counterRange →
    s.occupancy = pushed - consumed ∧ s.pushSlot = pushed % s.params.capacity ∧
    (∀ k, s.peekSlot k = (consumed + k) % s.params.capacity) ∧
    (∀ b, ∃ t, exec (.push b) s = .next t ∧ t.tail = consumed % s.params.counterRange ∧
      t.head = (if pushed = consumed + s.params.capacity then pushed else pushed + 1) % s.params.counterRange) ∧
    (∀ n : Count, s.arrivals = [] → n.toNat ≤ pushed - consumed → ∃ t, exec (.advance n) s = .next t ∧
      t.head = pushed % s.params.counterRange ∧ t.tail = (consumed + n.toNat) % s.params.counterRange)

/-- R27, decision D1: with the same bytes pushed and consumed, two blocks whose counters differ in their width alone answer
every instruction alike, and differ in their counters alone afterwards, or both take AdvanceUnderrun. -/
def Obligations.CounterWidthDoesNotMatter : Prop :=
  ∀ (i : Instr) (s t : State), s.SameButWidth t → ∃ u v, exec i s = .next u ∧ exec i t = .next v ∧
    u.result = v.result ∧ u.target = v.target ∧ u.current = v.current ∧ u.sink = v.sink ∧
    u.conditions = v.conditions ∧ u.faultUnderrun = v.faultUnderrun ∧ (u.result ≠ .fault → u.SameButWidth v)

/-! ### FrameScanner -/

/-- R131, R139: with a snapshot below MIN_MSG_SIZE a pass returns WAIT and writes nothing. -/
def Obligations.ScanBelowGuardWaits : Prop :=
  ∀ s : State, s.interrupt.occupancy < s.params.minMsgSize → ∃ t, exec .scan s = .next t ∧ t.result = .outcome .wait ∧
    SameBlock s.interrupt t ∧ t.tail = s.tail ∧ t.target = s.target ∧ t.current = s.current ∧
    t.faultUnderrun = s.faultUnderrun ∧ t.sink = s.sink ∧ t.consumerConditions = s.consumerConditions ∧
    (s.arrivals = [] → SameBlock s t ∧ ∀ a, t.mem.read a = s.mem.read a)

/-- R133, R139, R212: past the guard and without the sentinel pair at the snapshot's tail, a pass consumes exactly one byte,
signals FrameMisalignment and returns RESYNC, whatever arrives before its five accesses. -/
def Obligations.ScanWithoutSentinelPairDropsOneByte : Prop :=
  ∀ s : State, s.occupancy ≤ s.params.capacity → s.params.minMsgSize ≤ s.interrupt.occupancy →
    ¬(s.interrupt.byteAt 0 = s.params.sentinel ∧ s.interrupt.byteAt 1 = s.params.sentinel) →
    ∃ t, exec .scan s = .next t ∧ t.result = .outcome .resync ∧ t.tail = (s.tail + 1) % s.params.counterRange ∧
      t.consumerConditions =
        .frameMisalignment (s.interrupt.byteAt 0) (s.interrupt.byteAt 1) :: s.consumerConditions ∧
      t.target = s.target ∧ t.current = s.current ∧ t.faultUnderrun = s.faultUnderrun ∧ t.sink = s.sink ∧
      SameStorage (State.interrupt^[5] s) t ∧
      (s.arrivals = [] → t.head = s.head ∧ ∀ a, t.mem.read a = s.mem.read a)

/-- R132, R139, R87, R151, R152: a frame located at the snapshot, whose advance fits the snapshot and whose payload, for
CMD_SET_THROTTLE, has arrived, is dispatched and consumed by `2 + len`, whatever arrives meanwhile. -/
def Obligations.ScanDispatchesLocatedFrame : Prop :=
  ∀ s : State, s.occupancy ≤ s.params.capacity → s.interrupt.locates = true →
    2 + (s.interrupt.byteAt 2).toNat ≤ s.interrupt.occupancy →
    (s.interrupt.byteAt 3 = s.params.cmdSetThrottle → s.params.frameBytes ≤ s.interrupt.occupancy) →
    ∃ t, exec .scan s = .next t ∧ t.result = .outcome .dispatched ∧
      t.tail = (s.tail + 2 + (s.interrupt.byteAt 2).toNat) % s.params.counterRange ∧
      t.target = (if s.interrupt.byteAt 3 = s.params.cmdSetThrottle then Drive.of s.params s.interrupt.frameTarget
        else s.target) ∧
      t.current = s.current ∧ t.faultUnderrun = s.faultUnderrun ∧ t.sink = s.sink ∧
      SameStorage (State.interrupt^[s.advanceAccess + 1] s) t ∧
      (s.arrivals = [] → t.head = s.head ∧ ∀ a, t.mem.read a = s.mem.read a)

/-- R140, R137, R134: hunting across `g` bytes with no sentinel pair among them takes `g` ticks, one byte each, as long as every
one of those ticks has a snapshot of at least MIN_MSG_SIZE; the targets stand and each tick emits. -/
def Obligations.HuntingTakesOneTickPerByte : Prop :=
  ∀ (g : Nat) (s : State), s.arrivals = [] → s.occupancy ≤ s.params.capacity → g + s.params.minMsgSize ≤ s.occupancy + 1 →
    (∀ k < g, ¬(s.byteAt k = s.params.sentinel ∧ s.byteAt (k + 1) = s.params.sentinel)) →
    ∃ t, execEach (List.replicate g .tick) s = .next t ∧ (0 < g → t.tail = (s.tail + g) % s.params.counterRange) ∧
      t.head = s.head ∧ t.mem = s.mem ∧ t.target = s.target ∧ t.faultUnderrun = s.faultUnderrun ∧
      t.sink.length = s.sink.length + g ∧ ∀ k, t.byteAt k = s.byteAt (g + k)

/-- R155: the ten bytes of the source's example at the tail, at any six value bytes, after one scan pass; the guard passes, as
it does at every MIN_MSG_SIZE up to these ten bytes, the default 6 among them. -/
def Obligations.ThrottleFrameSetsTargetsInOnePass : Prop :=
  ∀ (s : State) (hi1 lo1 hi2 lo2 hi3 lo3 : Byte), s.params.AsGiven → s.occupancy ≤ 256 →
    s.params.minMsgSize ≤ s.interrupt.occupancy →
    s.interrupt.unread.take 10 = [0xFF, 0xFF, 0x07, 0x01, hi1, lo1, hi2, lo2, hi3, lo3] →
    ∃ t, exec .scan s = .next t ∧ t.result = .outcome .dispatched ∧ t.tail = (s.tail + 9) % s.params.counterRange ∧
      t.target = ⟨[max 3000 (min (hi1.toNat * 256 + lo1.toNat) 6000), max 3000 (min (hi2.toNat * 256 + lo2.toNat) 6000),
        max 3000 (min (hi3.toNat * 256 + lo3.toNat) 6000)]⟩

/-- R252, R154, R132, R113 case 5: a located frame, whether it has arrived whole or not, is dispatched: each value byte of
CMD_SET_THROTTLE is what its slot holds at its own read, unread, racing or stale (R64); and it is consumed if `2 + len` is within the
occupancy at the test of the advance, counting what has arrived by then. A tick then ramps and emits (R190). -/
def Obligations.IncompleteFrameIsDispatchedFromStorage : Prop :=
  ∀ s : State, s.occupancy ≤ s.params.capacity → s.interrupt.locates = true →
    2 + (s.interrupt.byteAt 2).toNat ≤ (State.interrupt^[s.advanceAccess] s).occupancy →
    ∃ t w, exec .scan s = .next t ∧ t.result = .outcome .dispatched ∧
      t.target = (if s.interrupt.byteAt 3 = s.params.cmdSetThrottle then Drive.of s.params (s.racingTarget 4)
        else s.target) ∧
      t.tail = (s.tail + 2 + (s.interrupt.byteAt 2).toNat) % s.params.counterRange ∧
      t.current = s.current ∧ t.faultUnderrun = s.faultUnderrun ∧ t.sink = s.sink ∧
      SameStorage (State.interrupt^[s.advanceAccess + 1] s) t ∧
      (s.arrivals = [] → t.head = s.head ∧ ∀ a, t.mem.read a = s.mem.read a) ∧
      exec .tick s = .next w ∧ w.result = t.result ∧ w.target = t.target ∧ w.tail = t.tail ∧ SameStorage t w ∧
      w.faultUnderrun = s.faultUnderrun ∧ w.sink = w.current :: s.sink ∧
      w.current = rampDrive s.params s.current t.target

/-- R253, R113, R132: a located frame whose `2 + len` exceeds the occupancy at the test of the advance, counting what has
arrived by then, is dispatched and then takes AdvanceUnderrun (decision D4): no outcome, no ramp, no sink event. -/
def Obligations.ScanPastDataTakesUnderrun : Prop :=
  ∀ s : State, s.occupancy ≤ s.params.capacity → s.interrupt.locates = true →
    (State.interrupt^[s.advanceAccess] s).occupancy < 2 + (s.interrupt.byteAt 2).toNat →
    ∃ t, exec .scan s = .next t ∧ exec .tick s = .next t ∧ t.faultUnderrun = true ∧ t.result = .fault ∧
      t.target = (if s.interrupt.byteAt 3 = s.params.cmdSetThrottle then Drive.of s.params (s.racingTarget 4)
        else s.target) ∧
      t.current = s.current ∧ t.sink = s.sink ∧ SameStorage (State.interrupt^[s.advanceAccess] s) t ∧
      (s.arrivals = [] → t.head = s.head ∧ ∀ a, t.mem.read a = s.mem.read a)

/-- R255, R113 case 4: three SENTINEL at the tail (a residual one before the next frame) end the tick in AdvanceUnderrun under
every interrupt schedule, because `2 + SENTINEL`, 257, exceeds `C`, 256: no ramp and no sink event. -/
def Obligations.ResidualSentinelByteFaultsTick : Prop :=
  ∀ s : State, s.params.capacity < 2 + s.params.sentinel.toNat → s.occupancy ≤ s.params.capacity →
    s.params.minMsgSize ≤ s.interrupt.occupancy → s.interrupt.byteAt 0 = s.params.sentinel →
    s.interrupt.byteAt 1 = s.params.sentinel → s.interrupt.byteAt 2 = s.params.sentinel →
    ∃ t, exec .tick s = .next t ∧ t.faultUnderrun = true ∧ t.result = .fault ∧ t.current = s.current ∧ t.sink = s.sink

/-- R194: if every byte a tick reads lies below its snapshot and its advance is by at most the snapshot, where the pushes
fall inside the tick makes no difference to its outcome, `tail`, the throttle state and the sink. -/
def Obligations.InterleavingInsideTickDoesNotMatter : Prop :=
  ∀ s : State, s.occupancy ≤ s.params.capacity →
    (s.interrupt.locates = true → 2 + (s.interrupt.byteAt 2).toNat ≤ s.interrupt.occupancy ∧
      (s.interrupt.byteAt 3 = s.params.cmdSetThrottle → s.params.frameBytes ≤ s.interrupt.occupancy)) →
    ∃ t u, exec .tick s = .next t ∧ exec .tick { s.interrupt with arrivals := [] } = .next u ∧
      t.result = u.result ∧ t.tail = u.tail ∧ t.target = u.target ∧ t.current = u.current ∧ t.sink = u.sink ∧
      t.faultUnderrun = u.faultUnderrun ∧ t.consumerConditions = u.consumerConditions

/-- R256: under P1 (the stream, unread and still to arrive, is clean frames behind at most one residual byte that is not
SENTINEL), P2 (all of it fits, so no push overflows) and P3 (a frame located at the snapshot is there whole), a tick is
fault-free and leaves a stream of the same form, which fits as well. -/
def Obligations.AlignedStreamTicksWithoutFault : Prop :=
  ∀ s : State, s.faultUnderrun = false → Aligned s.params s.stream → s.stream.length ≤ s.params.capacity →
    (s.interrupt.locates = true → 3 + (s.interrupt.byteAt 2).toNat ≤ s.interrupt.occupancy) →
    ∃ t, exec .tick s = .next t ∧ t.faultUnderrun = false ∧ t.result ≠ .fault ∧ Aligned s.params t.stream ∧
      t.stream.length ≤ s.params.capacity

/-- R133, R212: `RESYNC_BYTE` on its own consumes the byte at the tail and signals FrameMisalignment; on an empty buffer its
advance is an underrun (R113). That it is performed by itself, and so can underrun, is the model's (logs 3, 14): inside SCAN
it cannot (R130). -/
def Obligations.ResyncByteConsumesOneByte : Prop :=
  ∀ (b0 b1 : Byte) (s : State),
    (1 ≤ s.interrupt.occupancy → ∃ t, exec (.resyncByte b0 b1) s = .next t ∧ t.result = .outcome .resync ∧
      t.tail = (s.tail + 1) % s.params.counterRange ∧
      t.consumerConditions = .frameMisalignment b0 b1 :: s.consumerConditions ∧
      t.target = s.target ∧ t.current = s.current ∧ t.faultUnderrun = s.faultUnderrun ∧ t.sink = s.sink ∧
      SameStorage (State.interrupt^[2] s) t ∧
      (s.arrivals = [] → t.head = s.head ∧ ∀ a, t.mem.read a = s.mem.read a)) ∧
    (s.interrupt.occupancy = 0 → ∃ t, exec (.resyncByte b0 b1) s = .next t ∧ t.result = .fault ∧
      t.faultUnderrun = true ∧
      t.consumerConditions = .advanceUnderrun 1 :: .frameMisalignment b0 b1 :: s.consumerConditions ∧
      t.target = s.target ∧ t.current = s.current ∧ t.sink = s.sink ∧ SameStorage s.interrupt t ∧
      (s.arrivals = [] → t.head = s.head ∧ ∀ a, t.mem.read a = s.mem.read a))

/-! ### Dispatcher -/

/-- R88, R151, R64, R193: `DISPATCH` of CMD_SET_THROTTLE assembles each target big-endian from the bytes at offsets `2 + 2*i` and
`3 + 2*i`, each as it stands at its own read (the `j`-th access of the operation sees the pushes of the first `j` schedule
entries), unread, racing or stale, and saturates it. Nothing else is written but by the pushes before its accesses, seven at
the NCH of R7. DISPATCH where no frame is located follows its pseudocode in the model (log 13); R150 runs it on the located
branch. -/
def Obligations.DispatchAssemblesBigEndianTargets : Prop :=
  ∀ s : State, (State.interrupt^[1] s).byteAt 3 = s.params.cmdSetThrottle → ∃ t, exec .dispatch s = .next t ∧
    t.target.values.length = s.params.channels ∧
    (∀ i ∈ s.params.channelNumbers, t.target.get i = max s.params.throttleLo (min
      (((State.interrupt^[2 * i] s).byteAt (2 + 2 * i)).toNat * 256 +
        ((State.interrupt^[2 * i + 1] s).byteAt (3 + 2 * i)).toNat) s.params.throttleHi)) ∧
    t.result = .none ∧ t.tail = s.tail ∧ t.current = s.current ∧ t.faultUnderrun = s.faultUnderrun ∧
    t.sink = s.sink ∧ SameStorage (State.interrupt^[1 + 2 * s.params.channels] s) t ∧
    (s.arrivals = [] → t.head = s.head ∧ ∀ a, t.mem.read a = s.mem.read a)

/-- R150, R151: the same under every interrupt schedule once the bytes of the frame, ten at the NCH of R7, are unread at the
read of `cmd`; only the pushes before its accesses touch storage and `head`, and no unread byte changes (R63). DISPATCH where
no frame is located follows its pseudocode in the model (log 13); R150 runs it on the located branch. -/
def Obligations.DispatchOfWholeFrameIgnoresInterrupts : Prop :=
  ∀ s : State, s.params.frameBytes ≤ s.occupancy → s.occupancy ≤ s.params.capacity →
    s.byteAt 3 = s.params.cmdSetThrottle → ∃ t, exec .dispatch s = .next t ∧
    t.target = Drive.of s.params s.frameTarget ∧
    t.result = .none ∧ t.tail = s.tail ∧ t.current = s.current ∧ t.faultUnderrun = s.faultUnderrun ∧
    t.sink = s.sink ∧ SameStorage (State.interrupt^[1 + 2 * s.params.channels] s) t ∧
    ∀ k < s.occupancy, t.byteAt k = s.byteAt k

/-- R150, R152, R214: `DISPATCH` of any other command signals UnknownCommand and changes nothing. DISPATCH where no frame is
located follows its pseudocode in the model (log 13); R150 runs it on the located branch. -/
def Obligations.DispatchIgnoresReservedCommand : Prop :=
  ∀ s : State, s.interrupt.byteAt 3 ≠ s.params.cmdSetThrottle → ∃ t, exec .dispatch s = .next t ∧
    SameBlock s.interrupt t ∧ t.result = .none ∧
    t.consumerConditions = .unknownCommand (s.interrupt.byteAt 3) :: s.consumerConditions ∧
    t.tail = s.tail ∧ t.target = s.target ∧ t.current = s.current ∧ t.faultUnderrun = s.faultUnderrun ∧
    t.sink = s.sink ∧ (s.arrivals = [] → SameBlock s t ∧ ∀ a, t.mem.read a = s.mem.read a)

/-- R151, R213: `SET_THROTTLE` writes the target of every channel, each saturated into THR_LO..THR_HI, signals OutOfRangeValue
for exactly the channels whose value lies outside, in channel order, and leaves everything else as it was, whatever `len`
is. -/
def Obligations.SetThrottleWritesClampedTargets : Prop :=
  ∀ (len : Byte) (v1 v2 : Immediate) (vs : List Immediate) (s : State), (v1 :: v2 :: vs).length = s.params.channels →
    ∃ t, exec (.setThrottle len v1 v2 vs) s = .next t ∧
      t.target.values = (v1 :: v2 :: vs).map (fun v => max s.params.throttleLo (min v.toNat s.params.throttleHi)) ∧
      t.conditions =
        (((v1 :: v2 :: vs).zipIdx 1).filterMap fun (v, i) =>
          if v.toNat < s.params.throttleLo ∨ s.params.throttleHi < v.toNat then some (.outOfRangeValue i v)
          else none).reverse ++ s.conditions ∧
      t.result = .none ∧ t.mem = s.mem ∧ t.head = s.head ∧ t.tail = s.tail ∧ t.current = s.current ∧
      t.faultUnderrun = s.faultUnderrun ∧ t.sink = s.sink ∧ t.arrivals = s.arrivals ∧
      ∀ a, t.mem.read a = s.mem.read a

/-- R152, R214: `CMD_RESERVED` signals UnknownCommand and changes no state. -/
def Obligations.ReservedCommandChangesNoState : Prop :=
  ∀ (len cmd : Byte) (s : State), ∃ t, exec (.cmdReserved len cmd) s = .next t ∧ SameBlock s t ∧
    t.result = .none ∧ t.conditions = .unknownCommand cmd :: s.conditions ∧ t.sink = s.sink ∧
    t.arrivals = s.arrivals ∧ ∀ a, t.mem.read a = s.mem.read a

/-- R153: the clamp is idempotent, monotone and the identity on THR_LO..THR_HI, 3000..6000, keeps every value within the closed
range, and treats no value as signed; the assembly of two bytes cannot overflow. -/
def Obligations.ClampSaturatesUnsigned : Prop :=
  (∀ (p : Params) (v : Nat), clamp p (clamp p v) = clamp p v) ∧
  (∀ (p : Params) (v w : Nat), v ≤ w → clamp p v ≤ clamp p w) ∧
  (∀ (p : Params) (v : Nat), p.throttleLo ≤ v → v ≤ p.throttleHi → clamp p v = v) ∧
  (∀ (p : Params) (v : Nat), p.throttleLo ≤ clamp p v ∧ clamp p v ≤ p.throttleHi ∧ clamp p v < 2 ^ p.valueWidth) ∧
  (∀ p : Params, p.AsGiven →
    (∀ v : Nat, 3000 ≤ v → v ≤ 6000 → clamp p v = v) ∧ (∀ v : Nat, v < 3000 → clamp p v = 3000) ∧
    (∀ v : Nat, 6000 < v → clamp p v = 6000) ∧ clamp p (0xFFFF : Immediate).toNat = 6000) ∧
  ∀ hi lo : Byte, (u16be hi lo).toNat = hi.toNat * 256 + lo.toNat

/-! ### ActuationRamp -/

/-- R170, R172: one `RAMP_STEP` moves each channel by exactly DELTA, 450, toward its target when it is further away and onto it
otherwise, over the integers, from every value, and leaves everything else as it was. -/
def Obligations.RampStepMovesTowardTarget : Prop :=
  ∀ s : State, ∃ t, exec .rampStep s = .next t ∧ t.current.values.length = s.params.channels ∧
    (∀ i ∈ s.params.channelNumbers, t.current.get i =
      if s.current.get i + s.params.delta < s.target.get i then s.current.get i + s.params.delta
      else if s.target.get i + s.params.delta < s.current.get i then s.current.get i - s.params.delta
      else s.target.get i) ∧
    t.result = .none ∧ t.target = s.target ∧ t.mem = s.mem ∧ t.head = s.head ∧ t.tail = s.tail ∧
    t.faultUnderrun = s.faultUnderrun ∧ t.sink = s.sink ∧ t.conditions = s.conditions ∧
    t.arrivals = s.arrivals ∧ ∀ a, t.mem.read a = s.mem.read a

/-- R173: with its target fixed a channel is on it after `ceil(d/DELTA)` steps and not before, and until then lies strictly
between where it last was and the target. -/
def Obligations.RampConvergesInCeilSteps : Prop :=
  ∀ (s : State) (i k c g : Nat), i ∈ s.params.channelNumbers → s.current.get i = c → s.target.get i = g →
    ∃ t, execEach (List.replicate k .rampStep) s = .next t ∧ t.target = s.target ∧
      ((c - g) + (g - c) ≤ s.params.delta * k → t.current.get i = g) ∧
      (c + s.params.delta * k < g → t.current.get i = c + s.params.delta * k) ∧
      (g + s.params.delta * k < c → t.current.get i = c - s.params.delta * k)

/-- R174: 4950, 5400, 5850, 6000 over four ticks with the target held at 6000: of four ticks that find too little to scan, and
of any four fault-free ticks after which the target is 6000, whatever they scan and whatever arrives. -/
def Obligations.FourTicksFromNeutralToFull : Prop :=
  ∀ (s : State) (i : Nat), s.params.AsGiven → i ∈ s.params.channelNumbers → s.current.get i = 4500 →
    (s.arrivals = [] → s.occupancy < s.params.minMsgSize → s.target.get i = 6000 →
      ∃ t1 t2 t3 t4, exec .tick s = .next t1 ∧ exec .tick t1 = .next t2 ∧ exec .tick t2 = .next t3 ∧
        exec .tick t3 = .next t4 ∧ t1.current.get i = 4950 ∧ t2.current.get i = 5400 ∧ t3.current.get i = 5850 ∧
        t4.current.get i = 6000) ∧
    ∀ t1 t2 t3 t4, exec .tick s = .next t1 → exec .tick t1 = .next t2 → exec .tick t2 = .next t3 →
      exec .tick t3 = .next t4 → (∀ t ∈ [t1, t2, t3, t4], t.result ≠ .fault ∧ t.target.get i = 6000) →
      t1.current.get i = 4950 ∧ t2.current.get i = 5400 ∧ t3.current.get i = 5850 ∧ t4.current.get i = 6000

/-- R171: `SINK_WRITE` emits one event with the current values, three at the NCH of R7, in every state, and changes nothing. -/
def Obligations.SinkWriteEmitsCurrentValues : Prop :=
  ∀ s : State, ∃ t, exec .sinkWrite s = .next t ∧ t.sink = s.current :: s.sink ∧
    SameBlock s t ∧ t.result = .none ∧ t.conditions = s.conditions ∧ t.arrivals = s.arrivals ∧
    ∀ a, t.mem.read a = s.mem.read a

/-! ### TICK and the whole machine -/

/-- R190, R176, R215: a tick is SCAN, RAMP_STEP, SINK_WRITE in this order, and answers the scan's outcome; if the scan took
AdvanceUnderrun the tick is the scan alone. -/
def Obligations.TickIsScanThenRampThenSink : Prop :=
  ∀ s : State, ∃ u, exec .scan s = .next u ∧
    (u.result = .fault → exec .tick s = .next u) ∧
    (u.result ≠ .fault → ∃ v w, exec .rampStep u = .next v ∧ exec .sinkWrite v = .next w ∧
      exec .tick s = .next { w with result := u.result } ∧ w.sink = w.current :: s.sink)

/-- R190 case 1, R131, R176: a tick below the guard returns WAIT, ramps and emits, and writes nothing else. -/
def Obligations.WaitingTickOnlyActuates : Prop :=
  ∀ s : State, s.arrivals = [] → s.occupancy < s.params.minMsgSize → ∃ t, exec .tick s = .next t ∧ t.result = .outcome .wait ∧
    t.sink = t.current :: s.sink ∧ t.current = rampDrive s.params s.current s.target ∧
    t.mem = s.mem ∧ t.head = s.head ∧ t.tail = s.tail ∧ t.target = s.target ∧
    t.faultUnderrun = s.faultUnderrun ∧ t.conditions = s.conditions ∧ ∀ a, t.mem.read a = s.mem.read a

/-- R175: no tick moves a channel by more than DELTA, 450, in any state and under any interrupt schedule. -/
def Obligations.TickSlewIsBounded : Prop :=
  ∀ (s : State), ∃ t, exec .tick s = .next t ∧ ∀ i ∈ s.params.channelNumbers,
    t.current.get i ≤ s.current.get i + s.params.delta ∧ s.current.get i ≤ t.current.get i + s.params.delta

/-- R25, R225: a `PUSH` writes nothing of the CONSUMER's, and no operation of the CONSUMER writes storage or `head`: they are
what the interrupts before some number of accesses made of them, and with no interrupt scheduled they stand. -/
def Obligations.EachFieldHasOneWriter : Prop :=
  ∀ (i : Instr) (s t : State), exec i s = .next t →
    ((∃ b, i = .push b) → t.tail = s.tail ∧ t.target = s.target ∧ t.current = s.current ∧
      t.faultUnderrun = s.faultUnderrun ∧ t.sink = s.sink) ∧
    ((∀ b, i ≠ .push b) → (∃ j, SameStorage (State.interrupt^[j] s) t) ∧
      (s.arrivals = [] → t.head = s.head ∧ ∀ a, t.mem.read a = s.mem.read a))

/-- R20, R28, R29, R171: `target` is written by the dispatching operations only, `current` by the ramp and the tick only, and
sink events come from SINK_WRITE and the tick only. -/
def Obligations.ThrottleStateHasItsOwnWriters : Prop :=
  ∀ (i : Instr) (s t : State), exec i s = .next t →
    (i ≠ .scan → i ≠ .dispatch → i ≠ .tick → (∀ len v1 v2 vs, i ≠ .setThrottle len v1 v2 vs) → t.target = s.target) ∧
    (i ≠ .rampStep → i ≠ .tick → t.current = s.current) ∧
    (i ≠ .sinkWrite → i ≠ .tick → t.sink = s.sink)

/-- R32, R215: `fault_underrun` is never cleared, and is set only where an `ADVANCE(n)` found `n` above the occupancy at its
test: the state then is the one that raised AdvanceUnderrun, `u`, in which the tail stood and storage and `head` were what
the interrupts so far had made of them. ADVANCE, SCAN, TICK and RESYNC_BYTE are the operations that perform one. -/
def Obligations.FaultBitIsStickyAndRaisedByAdvance : Prop :=
  ∀ (i : Instr) (s t : State), exec i s = .next t →
    (s.faultUnderrun = true → t.faultUnderrun = true) ∧
    (s.faultUnderrun = false → t.faultUnderrun = true →
      (∃ (n : Count) (u : State) (j : Nat), u.tail = s.tail ∧ SameStorage (State.interrupt^[j] s) u ∧
        u.occupancy < n.toNat ∧ t = { u.raiseUnderrun n with result := .fault } ∧
        (∀ m, i = .advance m → m = n) ∧ (∀ b0 b1, i = .resyncByte b0 b1 → n = 1)) ∧
      ((∃ n, i = .advance n) ∨ i = .scan ∨ i = .tick ∨ ∃ b0 b1, i = .resyncByte b0 b1))

/-- R63: no operation that does not advance changes an unread byte or its place, whatever arrives during it. -/
def Obligations.UnreadBytesStandUntilConsumed : Prop :=
  ∀ (i : Instr) (s t : State), s.occupancy ≤ s.params.capacity → (∀ n, i ≠ .advance n) → i ≠ .scan → i ≠ .tick →
    (∀ b0 b1, i ≠ .resyncByte b0 b1) → exec i s = .next t →
    t.tail = s.tail ∧ s.occupancy ≤ t.occupancy ∧ t.occupancy ≤ s.params.capacity ∧ ∀ k < s.occupancy, t.byteAt k = s.byteAt k

/-- The invariant holds after start-up, at every value of the parameters. -/
def Obligations.ResetMeetsInvariant : Prop := State.reset.Inv ∧ ∀ p : Params, (State.startup p).Inv

/-- R36, R7: no operation and no step writes the configuration. -/
def Obligations.ConfigurationIsFixed : Prop :=
  (∀ (i : Instr) (s t : State), exec i s = .next t → t.params = s.params) ∧
  ∀ s t : State, step s = .next t → t.params = s.params

/-- R20, R26, R30, R171 case 2: every step from a state with canonical storage, counters of `CW` bits, an occupancy within
the capacity while fault-free, and throttle state and sink events within THR_LO..THR_HI, leads to such a state. -/
def Obligations.StepKeepsInvariant : Prop :=
  ∀ s t : State, s.Inv → step s = .next t → t.Inv

/-! ### Runs without end -/

/-- R190 case 2, R192, R196: in a fault-free state the step of either agent is enabled: the CONSUMER's is a tick under whatever
interrupts fall into it, the PRODUCER's a `PUSH` of its byte, full buffer or not. -/
def Obligations.BothAgentsAreAlwaysEnabled : Prop :=
  ∀ s : State, s.faultUnderrun = false →
    (∀ arrivals, ∃ t, step (s.turn (.tick arrivals)) = .next t ∧
      exec .tick { s with requests := [], arrivals := arrivals } = .next t) ∧
    ∀ b, ∃ t, step (s.turn (.push b)) = .next t ∧ exec (.push b) { s with requests := [] } = .next t

/-- R196, R176: under a schedule in which the CONSUMER is weakly fair a run emits sink events without end. -/
def Obligations.FairRunActuatesForever : Prop :=
  ∀ (σ : Schedule) (r : Nat → State), σ.Fair → σ.Runs r →
    ∀ n k, ∃ m, n ≤ m ∧ k ≤ (r m).sink.length

/-- R196, R173: on a fair run a channel whose target is held from some moment on reaches it, and stays. -/
def Obligations.FairRunReachesHeldTarget : Prop :=
  ∀ (σ : Schedule) (r : Nat → State), σ.Fair → σ.Runs r →
    ∀ n i g, i ∈ (r n).params.channelNumbers → (∀ m, n ≤ m → (r m).target.get i = g) →
      ∃ m, n ≤ m ∧ ∀ k, m ≤ k → (r k).current.get i = g

/-- R196, decision D14: the PRODUCER has no fairness: there is a fair schedule on which no byte is ever pushed, and the block
runs from start-up under it without end, every tick a WAIT. -/
def Obligations.HostMayStaySilent : Prop :=
  ∀ p : Params, ∃ (σ : Schedule) (r : Nat → State), σ.Fair ∧ (∀ n, σ n = .tick []) ∧ r 0 = State.startup p ∧ σ.Runs r ∧
    ∀ n, (r (n + 1)).result = .outcome .wait

/-- R20, R26, R30, R197: the invariant holds at every point of every run from start-up, whatever the schedule and the
parameters. -/
def Obligations.EveryRunKeepsInvariant : Prop :=
  ∀ (p : Params) (σ : Schedule) (r : Nat → State), r 0 = State.startup p → σ.Runs r →
    ∀ n, (r n).Inv ∧ (r n).params = p ∧ (r n).occupancy ≤ p.capacity
end

