-- ==== Sys2Proof/Laws/Decode.lean ====
section
/-! SUPPORT. Request words and byte pairs as numbers (R93, R53, R96). -/

namespace Sys2Proof

theorem u16be_toNat (hi lo : Byte) : (u16be hi lo).toNat = hi.toNat * 256 + lo.toNat := by
  have hlo := lo.isLt
  simp only [u16be, BitVec.toNat_append]
  rw [← Nat.shiftLeft_add_eq_or_of_lt (by simpa using hlo), Nat.shiftLeft_eq]

/-- The two bytes of a value put together again are the value (R96). -/
theorem u16be_hiByte_loByte (v : Immediate) : u16be (hiByte v) (loByte v) = v := by
  apply BitVec.eq_of_getLsbD_eq
  intro i hi
  simp only [u16be, hiByte, loByte, BitVec.getLsbD_append, BitVec.getLsbD_extractLsb']
  by_cases h : i < 8
  · simp [h]
  · simp only [h, show 8 + (i - 8) = i by omega]
    simp
    omega

theorem hiByte_u16be (hi lo : Byte) : hiByte (u16be hi lo) = hi := by
  apply BitVec.eq_of_getLsbD_eq
  intro i hi'
  simp only [hiByte, u16be, BitVec.getLsbD_extractLsb', BitVec.getLsbD_append, hi']
  simp

theorem loByte_u16be (hi lo : Byte) : loByte (u16be hi lo) = lo := by
  apply BitVec.eq_of_getLsbD_eq
  intro i hi'
  simp only [loByte, u16be, BitVec.getLsbD_extractLsb', BitVec.getLsbD_append, hi']
  simp
  omega

theorem valueBytes_length (vs : List Immediate) : (valueBytes vs).length = 2 * vs.length := by
  induction vs with
  | nil => rfl
  | cons v vs ih => simp only [valueBytes, List.flatMap_cons, List.length_append, List.length_cons, List.length_nil] at ih ⊢; omega

/-- Values written out and read back (R84, R88), whatever follows them. -/
theorem decodeValues_valueBytes (vs : List Immediate) (rest : List Byte) :
    decodeValues vs.length (valueBytes vs ++ rest) = .ok vs := by
  induction vs with
  | nil => simp [decodeValues]
  | cons v vs ih =>
    simp only [valueBytes, List.flatMap_cons, List.cons_append, List.nil_append, List.length_cons, decodeValues] at ih ⊢
    simp only [ih, u16be_hiByte_loByte]

/-- What is read as values starts with their bytes. -/
theorem decodeValues_inv {n : Nat} {bs : List Byte} {vs : List Immediate} (h : decodeValues n bs = .ok vs) :
    vs.length = n ∧ ∃ rest, bs = valueBytes vs ++ rest := by
  induction n generalizing bs vs with
  | zero =>
    simp only [decodeValues, Except.ok.injEq] at h
    subst h
    exact ⟨rfl, bs, rfl⟩
  | succ n ih =>
    match bs with
    | hi :: lo :: bs =>
      simp only [decodeValues] at h
      split at h
      · rename_i ws hw
        simp only [Except.ok.injEq] at h
        subst h
        obtain ⟨hl, rest, hr⟩ := ih hw
        refine ⟨by simp [hl], rest, ?_⟩
        rw [hr]
        simp [valueBytes, hiByte_u16be, loByte_u16be]
      · simp at h
    | [_] => simp [decodeValues] at h
    | [] => simp [decodeValues] at h

theorem strobed_byte (b : Byte) : (0b1_00000000 + b.setWidth 16 : Word).toNat = 256 + b.toNat := by
  have := b.isLt
  simp [BitVec.toNat_add]
  omega

theorem strobed_count (n : Count) : (0b1_000000000 + n.setWidth 16 : Word).toNat = 512 + n.toNat := by
  have := n.isLt
  simp [BitVec.toNat_add]
  omega

/-- A word whose strobe bit is its highest 1 is accepted. -/
theorem decodePort_strobed {p : Port} {w : Word} (h : w.toNat / 2 ^ p.operandBits = 1) :
    decodePort p w = .ok (p.instr w) := by
  simp only [decodePort, h, if_true]

/-- Nothing else is. -/
theorem decodePort_inv {p : Port} {w : Word} {i : Instr} (h : decodePort p w = .ok i) :
    w.toNat / 2 ^ p.operandBits = 1 ∧ i = p.instr w := by
  simp only [decodePort] at h
  split at h
  · exact ⟨‹_›, by simpa using h.symm⟩
  · split at h <;> simp at h

end Sys2Proof
end

