-- ==== Sys2Proof/Laws/Params.lean ====
section
/-! SUPPORT. What the constraints of R7 give of the parameters. -/

namespace Sys2Proof

theorem Params.counterRange_pos (p : Params) : 0 < p.counterRange := by
  unfold Params.counterRange; positivity

theorem Params.capacity_ge (p : Params) : 4 ≤ p.capacity := p.minMsgSize_range.1.trans p.minMsgSize_range.2

/-- Slots repeat within the counter's range: `C` divides `2^CW` (R27, R51). -/
theorem Params.capacity_dvd (p : Params) : p.capacity ∣ p.counterRange :=
  p.capacity_eq ▸ pow_dvd_pow 2 (Nat.le_of_lt p.counterWidth_gt)

/-- All `C + 1` occupancies are told apart, with room to spare (D1). -/
theorem Params.counterRange_ge (p : Params) : 2 * p.capacity ≤ p.counterRange := by
  have h := Nat.pow_le_pow_right (n := 2) (by decide) p.counterWidth_gt
  rw [p.capacity_eq, ← pow_succ']
  exact h

/-- The channel numbers are `1..NCH`. -/
@[simp] theorem Params.mem_channelNumbers (p : Params) (i : Nat) : i ∈ p.channelNumbers ↔ 1 ≤ i ∧ i ≤ p.channels := by
  unfold Params.channelNumbers
  rw [List.mem_range'_1]
  omega

end Sys2Proof
end

