-- ==== Sys2Proof/Laws/State.lean ====
section
/-! SUPPORT. What each update of the state does to each field: one lemma per field per update. -/

namespace Sys2Proof.Machine

@[simp] theorem State.signal_mem (s : State) (c : Condition) : (s.signal c).mem = s.mem := rfl
@[simp] theorem State.signal_head (s : State) (c : Condition) : (s.signal c).head = s.head := rfl
@[simp] theorem State.signal_tail (s : State) (c : Condition) : (s.signal c).tail = s.tail := rfl
@[simp] theorem State.signal_target (s : State) (c : Condition) : (s.signal c).target = s.target := rfl
@[simp] theorem State.signal_current (s : State) (c : Condition) : (s.signal c).current = s.current := rfl
@[simp] theorem State.signal_faultUnderrun (s : State) (c : Condition) : (s.signal c).faultUnderrun = s.faultUnderrun := rfl
@[simp] theorem State.signal_sink (s : State) (c : Condition) : (s.signal c).sink = s.sink := rfl
@[simp] theorem State.signal_conditions (s : State) (c : Condition) : (s.signal c).conditions = c :: s.conditions := rfl
@[simp] theorem State.signal_result (s : State) (c : Condition) : (s.signal c).result = s.result := rfl
@[simp] theorem State.signal_arrivals (s : State) (c : Condition) : (s.signal c).arrivals = s.arrivals := rfl
@[simp] theorem State.signal_requests (s : State) (c : Condition) : (s.signal c).requests = s.requests := rfl
@[simp] theorem State.signal_draws (s : State) (c : Condition) : (s.signal c).draws = s.draws := rfl
@[simp] theorem State.signal_params (s : State) (c : Condition) : (s.signal c).params = s.params := rfl

@[simp] theorem State.raiseUnderrun_mem (s : State) (n : Count) : (s.raiseUnderrun n).mem = s.mem := rfl
@[simp] theorem State.raiseUnderrun_head (s : State) (n : Count) : (s.raiseUnderrun n).head = s.head := rfl
@[simp] theorem State.raiseUnderrun_tail (s : State) (n : Count) : (s.raiseUnderrun n).tail = Config.underrunTail s.draws % s.params.counterRange := rfl
@[simp] theorem State.raiseUnderrun_target (s : State) (n : Count) : (s.raiseUnderrun n).target = s.target := rfl
@[simp] theorem State.raiseUnderrun_current (s : State) (n : Count) : (s.raiseUnderrun n).current = s.current := rfl
@[simp] theorem State.raiseUnderrun_faultUnderrun (s : State) (n : Count) : (s.raiseUnderrun n).faultUnderrun = true := rfl
@[simp] theorem State.raiseUnderrun_sink (s : State) (n : Count) : (s.raiseUnderrun n).sink = s.sink := rfl
@[simp] theorem State.raiseUnderrun_conditions (s : State) (n : Count) : (s.raiseUnderrun n).conditions = .advanceUnderrun n :: s.conditions := rfl
@[simp] theorem State.raiseUnderrun_result (s : State) (n : Count) : (s.raiseUnderrun n).result = s.result := rfl
@[simp] theorem State.raiseUnderrun_arrivals (s : State) (n : Count) : (s.raiseUnderrun n).arrivals = s.arrivals := rfl
@[simp] theorem State.raiseUnderrun_requests (s : State) (n : Count) : (s.raiseUnderrun n).requests = s.requests := rfl
@[simp] theorem State.raiseUnderrun_draws (s : State) (n : Count) : (s.raiseUnderrun n).draws = s.draws + 1 := rfl
@[simp] theorem State.raiseUnderrun_params (s : State) (n : Count) : (s.raiseUnderrun n).params = s.params := rfl

@[simp] theorem State.moveTail_mem (s : State) (n : Count) : (s.moveTail n).mem = s.mem := rfl
@[simp] theorem State.moveTail_head (s : State) (n : Count) : (s.moveTail n).head = s.head := rfl
@[simp] theorem State.moveTail_tail (s : State) (n : Count) : (s.moveTail n).tail = s.countUp s.tail n.toNat := rfl
@[simp] theorem State.moveTail_target (s : State) (n : Count) : (s.moveTail n).target = s.target := rfl
@[simp] theorem State.moveTail_current (s : State) (n : Count) : (s.moveTail n).current = s.current := rfl
@[simp] theorem State.moveTail_faultUnderrun (s : State) (n : Count) : (s.moveTail n).faultUnderrun = s.faultUnderrun := rfl
@[simp] theorem State.moveTail_sink (s : State) (n : Count) : (s.moveTail n).sink = s.sink := rfl
@[simp] theorem State.moveTail_conditions (s : State) (n : Count) : (s.moveTail n).conditions = s.conditions := rfl
@[simp] theorem State.moveTail_result (s : State) (n : Count) : (s.moveTail n).result = s.result := rfl
@[simp] theorem State.moveTail_arrivals (s : State) (n : Count) : (s.moveTail n).arrivals = s.arrivals := rfl
@[simp] theorem State.moveTail_requests (s : State) (n : Count) : (s.moveTail n).requests = s.requests := rfl
@[simp] theorem State.moveTail_draws (s : State) (n : Count) : (s.moveTail n).draws = s.draws := rfl
@[simp] theorem State.moveTail_params (s : State) (n : Count) : (s.moveTail n).params = s.params := rfl

@[simp] theorem State.ramp_mem (s : State) : (s.ramp).mem = s.mem := rfl
@[simp] theorem State.ramp_head (s : State) : (s.ramp).head = s.head := rfl
@[simp] theorem State.ramp_tail (s : State) : (s.ramp).tail = s.tail := rfl
@[simp] theorem State.ramp_target (s : State) : (s.ramp).target = s.target := rfl
@[simp] theorem State.ramp_current (s : State) : (s.ramp).current = rampDrive s.params s.current s.target := rfl
@[simp] theorem State.ramp_faultUnderrun (s : State) : (s.ramp).faultUnderrun = s.faultUnderrun := rfl
@[simp] theorem State.ramp_sink (s : State) : (s.ramp).sink = s.sink := rfl
@[simp] theorem State.ramp_conditions (s : State) : (s.ramp).conditions = s.conditions := rfl
@[simp] theorem State.ramp_result (s : State) : (s.ramp).result = s.result := rfl
@[simp] theorem State.ramp_arrivals (s : State) : (s.ramp).arrivals = s.arrivals := rfl
@[simp] theorem State.ramp_requests (s : State) : (s.ramp).requests = s.requests := rfl
@[simp] theorem State.ramp_draws (s : State) : (s.ramp).draws = s.draws := rfl
@[simp] theorem State.ramp_params (s : State) : (s.ramp).params = s.params := rfl

@[simp] theorem State.emit_mem (s : State) : (s.emit).mem = s.mem := rfl
@[simp] theorem State.emit_head (s : State) : (s.emit).head = s.head := rfl
@[simp] theorem State.emit_tail (s : State) : (s.emit).tail = s.tail := rfl
@[simp] theorem State.emit_target (s : State) : (s.emit).target = s.target := rfl
@[simp] theorem State.emit_current (s : State) : (s.emit).current = s.current := rfl
@[simp] theorem State.emit_faultUnderrun (s : State) : (s.emit).faultUnderrun = s.faultUnderrun := rfl
@[simp] theorem State.emit_sink (s : State) : (s.emit).sink = s.current :: s.sink := rfl
@[simp] theorem State.emit_conditions (s : State) : (s.emit).conditions = s.conditions := rfl
@[simp] theorem State.emit_result (s : State) : (s.emit).result = s.result := rfl
@[simp] theorem State.emit_arrivals (s : State) : (s.emit).arrivals = s.arrivals := rfl
@[simp] theorem State.emit_requests (s : State) : (s.emit).requests = s.requests := rfl
@[simp] theorem State.emit_draws (s : State) : (s.emit).draws = s.draws := rfl
@[simp] theorem State.emit_params (s : State) : (s.emit).params = s.params := rfl

@[simp] theorem State.setTarget_mem (s : State) (i : Nat) (v : Immediate) :
    (s.setTarget i v).mem = s.mem := by
  unfold State.setTarget; split <;> rfl
@[simp] theorem State.setTarget_head (s : State) (i : Nat) (v : Immediate) :
    (s.setTarget i v).head = s.head := by
  unfold State.setTarget; split <;> rfl
@[simp] theorem State.setTarget_tail (s : State) (i : Nat) (v : Immediate) :
    (s.setTarget i v).tail = s.tail := by
  unfold State.setTarget; split <;> rfl
@[simp] theorem State.setTarget_target (s : State) (i : Nat) (v : Immediate) :
    (s.setTarget i v).target = s.target.set s.params i (clamp s.params v.toNat) := by
  unfold State.setTarget; split <;> rfl
@[simp] theorem State.setTarget_current (s : State) (i : Nat) (v : Immediate) :
    (s.setTarget i v).current = s.current := by
  unfold State.setTarget; split <;> rfl
@[simp] theorem State.setTarget_faultUnderrun (s : State) (i : Nat) (v : Immediate) :
    (s.setTarget i v).faultUnderrun = s.faultUnderrun := by
  unfold State.setTarget; split <;> rfl
@[simp] theorem State.setTarget_sink (s : State) (i : Nat) (v : Immediate) :
    (s.setTarget i v).sink = s.sink := by
  unfold State.setTarget; split <;> rfl
@[simp] theorem State.setTarget_conditions (s : State) (i : Nat) (v : Immediate) :
    (s.setTarget i v).conditions =
      if outOfRange s.params v.toNat then .outOfRangeValue i v :: s.conditions else s.conditions := by
  unfold State.setTarget; split <;> rfl
@[simp] theorem State.setTarget_result (s : State) (i : Nat) (v : Immediate) :
    (s.setTarget i v).result = s.result := by
  unfold State.setTarget; split <;> rfl
@[simp] theorem State.setTarget_arrivals (s : State) (i : Nat) (v : Immediate) :
    (s.setTarget i v).arrivals = s.arrivals := by
  unfold State.setTarget; split <;> rfl
@[simp] theorem State.setTarget_requests (s : State) (i : Nat) (v : Immediate) :
    (s.setTarget i v).requests = s.requests := by
  unfold State.setTarget; split <;> rfl
@[simp] theorem State.setTarget_draws (s : State) (i : Nat) (v : Immediate) :
    (s.setTarget i v).draws = s.draws := by
  unfold State.setTarget; split <;> rfl
@[simp] theorem State.setTarget_params (s : State) (i : Nat) (v : Immediate) :
    (s.setTarget i v).params = s.params := by
  unfold State.setTarget; split <;> rfl

/-- A drive built channel by channel holds what it was built from. -/
theorem Drive.get_of {p : Params} {f : Nat → Nat} {i : Nat} (h : i ∈ p.channelNumbers) :
    (Drive.of p f).get i = f i := by
  obtain ⟨h1, h2⟩ := (p.mem_channelNumbers i).mp h
  have hi : p.channelNumbers[i - 1]? = some i := by
    unfold Params.channelNumbers
    rw [List.getElem?_range' (by omega)]
    congr 1
    omega
  simp [Drive.get, Drive.of, List.getD_eq_getElem?_getD, hi]

theorem Drive.of_congr {p : Params} {f g : Nat → Nat} (h : ∀ i ∈ p.channelNumbers, f i = g i) :
    Drive.of p f = Drive.of p g := congrArg Drive.mk (List.map_congr_left h)

theorem Drive.length_of (p : Params) (f : Nat → Nat) : (Drive.of p f).values.length = p.channels := by
  simp [Drive.of, Params.channelNumbers]

/-- A drive with a value for every channel is what its channels hold. -/
theorem Drive.eq_of {p : Params} {d : Drive} (h : d.values.length = p.channels) : d = Drive.of p d.get := by
  obtain ⟨vs⟩ := d
  refine congrArg Drive.mk (List.ext_getElem? fun k => ?_)
  simp only [Params.channelNumbers, List.getElem?_map]
  by_cases hk : k < p.channels
  · rw [List.getElem?_range' hk, List.getElem?_eq_getElem (show k < vs.length by rw [h]; exact hk)]
    simp [Drive.get, List.getD_eq_getElem?_getD, List.getElem?_eq_getElem (show k < vs.length by rw [h]; exact hk)]
  · rw [List.getElem?_eq_none (by rw [h]; omega), List.getElem?_eq_none (by simp; omega)]
    rfl

/-- A write to one channel leaves the others. -/
theorem Drive.get_set {p : Params} {d : Drive} {i j : Nat} {v : Nat} (h : j ∈ p.channelNumbers) :
    (d.set p i v).get j = if j = i then v else d.get j := Drive.get_of h

theorem Drive.get_rampDrive {p : Params} {c t : Drive} {i : Nat} (h : i ∈ p.channelNumbers) :
    (rampDrive p c t).get i = rampValue p (c.get i) (t.get i) := Drive.get_of h

/-! A `PUSH` touches storage and `head` (R25), and beside them the record of conditions only. -/

@[simp] theorem enqueue_tail (b : Byte) (s : State) : (enqueue b s).1.tail = s.tail := by
  unfold enqueue; split <;> rfl
@[simp] theorem enqueue_target (b : Byte) (s : State) : (enqueue b s).1.target = s.target := by
  unfold enqueue; split <;> rfl
@[simp] theorem enqueue_current (b : Byte) (s : State) : (enqueue b s).1.current = s.current := by
  unfold enqueue; split <;> rfl
@[simp] theorem enqueue_faultUnderrun (b : Byte) (s : State) : (enqueue b s).1.faultUnderrun = s.faultUnderrun := by
  unfold enqueue; split <;> rfl
@[simp] theorem enqueue_sink (b : Byte) (s : State) : (enqueue b s).1.sink = s.sink := by
  unfold enqueue; split <;> rfl
@[simp] theorem enqueue_result (b : Byte) (s : State) : (enqueue b s).1.result = s.result := by
  unfold enqueue; split <;> rfl
@[simp] theorem enqueue_arrivals (b : Byte) (s : State) : (enqueue b s).1.arrivals = s.arrivals := by
  unfold enqueue; split <;> rfl
@[simp] theorem enqueue_requests (b : Byte) (s : State) : (enqueue b s).1.requests = s.requests := by
  unfold enqueue; split <;> rfl
@[simp] theorem enqueue_draws (b : Byte) (s : State) : (enqueue b s).1.draws = s.draws := by
  unfold enqueue; split <;> rfl
@[simp] theorem enqueue_params (b : Byte) (s : State) : (enqueue b s).1.params = s.params := by
  unfold enqueue; split <;> rfl

@[simp] theorem deliver_tail (bs : List Byte) (s : State) : (deliver bs s).tail = s.tail := by
  induction bs generalizing s with
  | nil => rfl
  | cons b bs ih => simp [deliver, ih]
@[simp] theorem deliver_target (bs : List Byte) (s : State) : (deliver bs s).target = s.target := by
  induction bs generalizing s with
  | nil => rfl
  | cons b bs ih => simp [deliver, ih]
@[simp] theorem deliver_current (bs : List Byte) (s : State) : (deliver bs s).current = s.current := by
  induction bs generalizing s with
  | nil => rfl
  | cons b bs ih => simp [deliver, ih]
@[simp] theorem deliver_faultUnderrun (bs : List Byte) (s : State) : (deliver bs s).faultUnderrun = s.faultUnderrun := by
  induction bs generalizing s with
  | nil => rfl
  | cons b bs ih => simp [deliver, ih]
@[simp] theorem deliver_sink (bs : List Byte) (s : State) : (deliver bs s).sink = s.sink := by
  induction bs generalizing s with
  | nil => rfl
  | cons b bs ih => simp [deliver, ih]
@[simp] theorem deliver_result (bs : List Byte) (s : State) : (deliver bs s).result = s.result := by
  induction bs generalizing s with
  | nil => rfl
  | cons b bs ih => simp [deliver, ih]
@[simp] theorem deliver_arrivals (bs : List Byte) (s : State) : (deliver bs s).arrivals = s.arrivals := by
  induction bs generalizing s with
  | nil => rfl
  | cons b bs ih => simp [deliver, ih]
@[simp] theorem deliver_requests (bs : List Byte) (s : State) : (deliver bs s).requests = s.requests := by
  induction bs generalizing s with
  | nil => rfl
  | cons b bs ih => simp [deliver, ih]
@[simp] theorem deliver_draws (bs : List Byte) (s : State) : (deliver bs s).draws = s.draws := by
  induction bs generalizing s with
  | nil => rfl
  | cons b bs ih => simp [deliver, ih]
@[simp] theorem deliver_params (bs : List Byte) (s : State) : (deliver bs s).params = s.params := by
  induction bs generalizing s with
  | nil => rfl
  | cons b bs ih => simp [deliver, ih]

@[simp] theorem State.interrupt_tail (s : State) : s.interrupt.tail = s.tail := by
  unfold State.interrupt; split <;> simp
@[simp] theorem State.interrupt_target (s : State) : s.interrupt.target = s.target := by
  unfold State.interrupt; split <;> simp
@[simp] theorem State.interrupt_current (s : State) : s.interrupt.current = s.current := by
  unfold State.interrupt; split <;> simp
@[simp] theorem State.interrupt_faultUnderrun (s : State) : s.interrupt.faultUnderrun = s.faultUnderrun := by
  unfold State.interrupt; split <;> simp
@[simp] theorem State.interrupt_sink (s : State) : s.interrupt.sink = s.sink := by
  unfold State.interrupt; split <;> simp
@[simp] theorem State.interrupt_result (s : State) : s.interrupt.result = s.result := by
  unfold State.interrupt; split <;> simp
@[simp] theorem State.interrupt_arrivals (s : State) : s.interrupt.arrivals = s.arrivals.tail := by
  unfold State.interrupt; split <;> simp_all
@[simp] theorem State.interrupt_requests (s : State) : s.interrupt.requests = s.requests := by
  unfold State.interrupt; split <;> simp
@[simp] theorem State.interrupt_draws (s : State) : s.interrupt.draws = s.draws := by
  unfold State.interrupt; split <;> simp
@[simp] theorem State.interrupt_params (s : State) : s.interrupt.params = s.params := by
  unfold State.interrupt; split <;> simp

end Sys2Proof.Machine
end

