-- ==== Sys2Proof/Laws/Memory.lean ====
section
/-! SUPPORT. Ring storage: a read after a write, and the canonical form kept by every operation. -/

namespace Sys2Proof.Machine

theorem Memory.read_forget (m : Memory) (a b : Nat) :
    (m.forget a).read b = if b = a then Config.storageAtReset else m.read b := by
  induction m with
  | nil => simp [Memory.forget, Memory.read]
  | cons c m ih =>
    obtain ⟨x, w⟩ := c
    simp only [Memory.forget, List.filter_cons] at ih ⊢
    by_cases hx : x = a
    · subst hx; by_cases hb : b = x <;> simp_all [Memory.read, eq_comm]
    · by_cases hb : x = b
      · subst hb; simp [Memory.read, hx]
      · simp [Memory.read, hx, hb, ih]

theorem Memory.read_list (m : Memory) (a b : Nat) (v : Byte) :
    (m.list a v).read b = if b = a then v else m.read b := by
  induction m with
  | nil => simp [Memory.list, Memory.read, eq_comm]
  | cons c m ih =>
    obtain ⟨x, w⟩ := c
    unfold Memory.list
    split
    · simp [Memory.read, eq_comm]
    · split
      · subst_vars; by_cases hb : b = x <;> simp [Memory.read, hb, eq_comm]
      · by_cases hb : x = b
        · subst hb; simp_all [Memory.read, eq_comm]
        · simp [Memory.read, hb, ih]

/-- A read gives the last byte written to its slot, and a write leaves every other slot alone. -/
theorem Memory.read_write (m : Memory) (a b : Nat) (v : Byte) :
    (m.write a v).read b = if b = a then v else m.read b := by
  unfold Memory.write
  split
  · subst_vars; exact Memory.read_forget m a b
  · exact Memory.read_list m a b v

theorem Memory.wf_forget {p : Params} {m : Memory} (h : m.wf p) (a : Nat) : (m.forget a).wf p :=
  ⟨h.1.filter _, fun c hc => h.2 c (List.mem_filter.mp hc).1⟩

theorem Memory.mem_list {m : Memory} {a : Nat} {v : Byte} {c : Host.Cell} (h : c ∈ m.list a v) :
    c = (a, v) ∨ c ∈ m := by
  induction m with
  | nil => simpa [Memory.list] using h
  | cons d m ih =>
    obtain ⟨x, w⟩ := d
    unfold Memory.list at h
    split at h
    · simpa using h
    · split at h
      · simp only [List.mem_cons] at h ⊢; tauto
      · simp only [List.mem_cons] at h ⊢
        rcases h with h | h
        · exact .inr (.inl h)
        · rcases ih h with h | h
          · exact .inl h
          · exact .inr (.inr h)

theorem Memory.wf_list {p : Params} {m : Memory} (h : m.wf p) {a : Nat} {v : Byte} (ha : a < p.capacity)
    (hv : v ≠ Config.storageAtReset) : (m.list a v).wf p := by
  refine ⟨?_, fun c hc => ?_⟩
  · have hp := h.1
    clear h
    induction m with
    | nil => simp [Memory.list]
    | cons d m ih =>
      obtain ⟨x, w⟩ := d
      rw [List.pairwise_cons] at hp
      unfold Memory.list
      split
      · rename_i hlt
        refine List.pairwise_cons.mpr ⟨?_, List.pairwise_cons.mpr hp⟩
        rintro c (_ | ⟨_, hc⟩)
        · exact hlt
        · exact lt_trans hlt (hp.1 c hc)
      · split
        · subst_vars; exact List.pairwise_cons.mpr hp
        · rename_i h1 h2
          refine List.pairwise_cons.mpr ⟨fun c hc => ?_, ih hp.2⟩
          rcases Memory.mem_list hc with rfl | hc
          · show x < a; omega
          · exact hp.1 c hc
  · rcases Memory.mem_list hc with rfl | hc
    · exact ⟨ha, hv⟩
    · exact h.2 c hc

/-- Every write keeps the canonical form. -/
theorem Memory.wf_write {p : Params} {m : Memory} (h : m.wf p) {a : Nat} (ha : a < p.capacity) (v : Byte) :
    (m.write a v).wf p := by
  unfold Memory.write
  split
  · exact Memory.wf_forget h a
  · exact Memory.wf_list h ha ‹_›

theorem index_lt (p : Params) (c : Nat) : index p c < p.capacity :=
  Nat.mod_lt _ (by have := p.capacity_ge; omega)

theorem wf_enqueue {s : State} (h : s.mem.wf s.params) (b : Byte) : (enqueue b s).1.mem.wf s.params := by
  unfold enqueue
  split
  · exact h
  · exact Memory.wf_write h (index_lt _ _) b

theorem wf_deliver {s : State} (h : s.mem.wf s.params) (bs : List Byte) : (deliver bs s).mem.wf s.params := by
  induction bs generalizing s with
  | nil => exact h
  | cons b bs ih =>
    have := ih (s := (enqueue b s).1) (by rw [enqueue_params]; exact wf_enqueue h b)
    rwa [enqueue_params] at this

theorem wf_interrupt {s : State} (h : s.mem.wf s.params) : s.interrupt.mem.wf s.params := by
  unfold State.interrupt
  split
  · exact h
  · rename_i bs rest _
    exact wf_deliver (s := { s with arrivals := rest }) h bs

end Sys2Proof.Machine
end

