-- ==== Sys2Proof/Laws/Ring.lean ====
section
/-! SUPPORT. The RingBuffer: what a `PUSH`, an interrupt and an `ADVANCE` can do to the occupancy and to the unread bytes
(R62, R63, R65). -/

namespace Sys2Proof.Machine

/-! ### Occupancy and offsets -/

/-- The occupancy is how far `head` stands ahead of `tail`, modulo `2^CW`. -/
theorem occ_modEq (p : Params) (h t : Nat) : h ≡ t + occ p h t [MOD p.counterRange] := by
  have hp : (0 : Int) < p.counterRange := Int.natCast_pos.mpr p.counterRange_pos
  apply (Int.natCast_modEq_iff).mp
  rw [Int.natCast_add, occ, Int.toNat_of_nonneg (Int.emod_nonneg _ hp.ne')]
  have := (Int.mod_modEq ((h : Int) - t) p.counterRange).symm.add_left (t : Int)
  simpa using this

theorem occ_lt (p : Params) (h t : Nat) : occ p h t < p.counterRange := by
  have hp : (0 : Int) < p.counterRange := Int.natCast_pos.mpr p.counterRange_pos
  have := Int.emod_lt_of_pos ((h : Int) - t) hp
  unfold occ
  omega

/-- The one number below `2^CW` by which `head` is ahead of `tail` is the occupancy. -/
theorem occ_eq_of_modEq {p : Params} {h t n : Nat} (hn : n < p.counterRange) (e : h ≡ t + n [MOD p.counterRange]) :
    occ p h t = n :=
  ((occ_modEq p h t).symm.trans e |>.add_left_cancel' t).eq_of_lt_of_lt (occ_lt p h t) hn

/-- `head` and the slot after the unread bytes agree as storage slots (R51). -/
theorem State.head_slot (s : State) : s.head % s.params.capacity = (s.tail + s.occupancy) % s.params.capacity :=
  (occ_modEq s.params s.head s.tail).of_dvd s.params.capacity_dvd

theorem State.countUp_modEq (s : State) (c n : Nat) : s.countUp c n ≡ c + n [MOD s.params.counterRange] :=
  Nat.mod_modEq _ _

theorem State.countUp_lt (s : State) (c n : Nat) : s.countUp c n < s.params.counterRange :=
  Nat.mod_lt _ s.params.counterRange_pos

theorem State.countUp_slot (s : State) (c n : Nat) : s.countUp c n % s.params.capacity = (c + n) % s.params.capacity :=
  (s.countUp_modEq c n).of_dvd s.params.capacity_dvd

theorem State.byteAt_eq (s : State) (k : Nat) : s.byteAt k = s.mem.read ((s.tail + k) % s.params.capacity) := rfl

theorem State.occupancy_congr {s t : State} (hh : t.head = s.head) (ht : t.tail = s.tail) (hp : t.params = s.params) :
    t.occupancy = s.occupancy := by
  simp [State.occupancy, hh, ht, hp]

theorem State.byteAt_congr {s t : State} (hm : t.mem = s.mem) (ht : t.tail = s.tail) (hp : t.params = s.params) (k : Nat) :
    t.byteAt k = s.byteAt k := by
  simp [State.byteAt, State.peekSlot, hm, ht, hp]

@[simp] theorem State.signal_occupancy (s : State) (c : Condition) : (s.signal c).occupancy = s.occupancy := rfl
@[simp] theorem State.signal_byteAt (s : State) (c : Condition) (k : Nat) : (s.signal c).byteAt k = s.byteAt k := rfl
@[simp] theorem State.setTarget_occupancy (s : State) (i : Nat) (v : Immediate) :
    (s.setTarget i v).occupancy = s.occupancy := State.occupancy_congr (by simp) (by simp) (by simp)
@[simp] theorem State.setTarget_byteAt (s : State) (i : Nat) (v : Immediate) (k : Nat) :
    (s.setTarget i v).byteAt k = s.byteAt k := State.byteAt_congr (by simp) (by simp) (by simp) k
@[simp] theorem State.ramp_occupancy (s : State) : s.ramp.occupancy = s.occupancy := rfl
@[simp] theorem State.emit_occupancy (s : State) : s.emit.occupancy = s.occupancy := rfl

theorem State.unread_length (s : State) : s.unread.length = s.occupancy := by simp [State.unread]

theorem State.unread_getElem? (s : State) {k : Nat} (h : k < s.occupancy) : s.unread[k]? = some (s.byteAt k) := by
  simp [State.unread, h]

/-- The unread bytes are determined by the occupancy and the bytes below it. -/
theorem State.unread_congr {s t : State} (ho : t.occupancy = s.occupancy)
    (hb : ∀ k < s.occupancy, t.byteAt k = s.byteAt k) : t.unread = s.unread := by
  unfold State.unread
  rw [ho]
  exact List.map_congr_left fun k hk => hb k (List.mem_range.mp hk)

/-! ### PUSH -/

theorem State.full_iff (s : State) : s.full = true ↔ s.occupancy = s.params.capacity := by
  simp [State.full]

theorem enqueue_full {s : State} (h : s.occupancy = s.params.capacity) (b : Byte) :
    enqueue b s = (s.signal (.bufferOverflow b), .overflow) := by
  simp [enqueue, s.full_iff.mpr h]

theorem enqueue_room {s : State} (h : s.occupancy ≠ s.params.capacity) (b : Byte) :
    enqueue b s = ({ s with mem := s.mem.write s.pushSlot b, head := s.countUp s.head 1 }, .ok) := by
  simp [enqueue, s.full_iff, h]

theorem occupancy_enqueue {s : State} (h : s.occupancy < s.params.capacity) (b : Byte) :
    (enqueue b s).1.occupancy = s.occupancy + 1 := by
  have hr := s.params.counterRange_ge
  rw [enqueue_room (by omega)]
  show occ s.params (s.countUp s.head 1) s.tail = _
  exact occ_eq_of_modEq (by omega) ((s.countUp_modEq s.head 1).trans ((occ_modEq s.params s.head s.tail).add_right 1))

theorem byteAt_enqueue {s : State} (h : s.occupancy ≤ s.params.capacity) {k : Nat} (hk : k < s.occupancy) (b : Byte) :
    (enqueue b s).1.byteAt k = s.byteAt k := by
  by_cases hf : s.occupancy = s.params.capacity
  · rw [enqueue_full hf]; rfl
  · rw [enqueue_room hf]
    have hs := s.head_slot
    simp only [State.byteAt_eq, Memory.read_write, State.pushSlot, index]
    rw [if_neg]
    show ¬(s.tail + k) % s.params.capacity = s.head % s.params.capacity
    intro he
    have := Nat.ModEq.add_left_cancel' s.tail (he.trans hs)
    have := Nat.ModEq.eq_of_lt_of_lt this (by omega) (by omega)
    omega

theorem byteAt_enqueue_new {s : State} (h : s.occupancy < s.params.capacity) (b : Byte) :
    (enqueue b s).1.byteAt s.occupancy = b := by
  rw [enqueue_room (by omega)]
  simp only [State.byteAt_eq, Memory.read_write, State.pushSlot, index]
  rw [if_pos]
  exact s.head_slot.symm

theorem unread_enqueue_full {s : State} (h : s.occupancy = s.params.capacity) (b : Byte) :
    (enqueue b s).1.unread = s.unread := by
  rw [enqueue_full h]; rfl

theorem unread_enqueue {s : State} (h : s.occupancy < s.params.capacity) (b : Byte) :
    (enqueue b s).1.unread = s.unread ++ [b] := by
  unfold State.unread
  rw [occupancy_enqueue h, List.range_succ, List.map_append, List.map_singleton, byteAt_enqueue_new h]
  congr 1
  exact List.map_congr_left fun k hk => byteAt_enqueue (by omega) (List.mem_range.mp hk) b

/-! ### Growth: what pushes leave alone -/

/-- `t` is `s` after some pushes: the tail stands, the occupancy has not shrunk and is within the capacity, and the bytes
unread in `s` are unread in `t` at the same offsets (R63). -/
structure Grows (s t : State) : Prop where
  params : t.params = s.params
  tail : t.tail = s.tail
  le : s.occupancy ≤ t.occupancy
  bound : t.occupancy ≤ t.params.capacity
  byteAt : ∀ k < s.occupancy, t.byteAt k = s.byteAt k

theorem Grows.refl {s : State} (h : s.occupancy ≤ s.params.capacity) : Grows s s := ⟨rfl, rfl, le_rfl, h, fun _ _ => rfl⟩

theorem Grows.trans {s t u : State} (h : Grows s t) (g : Grows t u) : Grows s u :=
  ⟨g.params.trans h.params, g.tail.trans h.tail, h.le.trans g.le, g.bound,
    fun k hk => (g.byteAt k (lt_of_lt_of_le hk h.le)).trans (h.byteAt k hk)⟩

theorem grows_enqueue {s : State} (h : s.occupancy ≤ s.params.capacity) (b : Byte) : Grows s (enqueue b s).1 := by
  by_cases hf : s.occupancy = s.params.capacity
  · rw [enqueue_full hf]; exact ⟨rfl, rfl, le_rfl, h, fun _ _ => rfl⟩
  · have ho := occupancy_enqueue (s := s) (by omega) b
    exact ⟨by simp, by simp, by omega, by rw [enqueue_params]; omega, fun k hk => byteAt_enqueue h hk b⟩

theorem grows_deliver {s : State} (h : s.occupancy ≤ s.params.capacity) (bs : List Byte) : Grows s (deliver bs s) := by
  induction bs generalizing s with
  | nil => exact Grows.refl h
  | cons b bs ih => exact (grows_enqueue h b).trans (ih (grows_enqueue h b).bound)

theorem grows_interrupt {s : State} (h : s.occupancy ≤ s.params.capacity) : Grows s s.interrupt := by
  unfold State.interrupt
  split
  · exact Grows.refl h
  · rename_i bs rest _
    have g : Grows { s with arrivals := rest } _ := grows_deliver (by exact h) bs
    exact ⟨g.params, g.tail, g.le, g.bound, g.byteAt⟩

/-- With no interrupt scheduled the interrupt point does nothing. -/
theorem State.interrupt_of_quiet {s : State} (h : s.arrivals = []) : s.interrupt = s := by
  unfold State.interrupt; rw [h]

/-! ### An interrupt depends on the ring and the schedule only -/

/-- The same ring and the same schedule: the throttle state and the records may differ. -/
structure SameRing (s t : State) : Prop where
  params : t.params = s.params
  mem : t.mem = s.mem
  head : t.head = s.head
  tail : t.tail = s.tail
  arrivals : t.arrivals = s.arrivals

theorem SameRing.refl (s : State) : SameRing s s := ⟨rfl, rfl, rfl, rfl, rfl⟩

theorem SameRing.byteAt {s t : State} (h : SameRing s t) (k : Nat) : t.byteAt k = s.byteAt k :=
  State.byteAt_congr h.mem h.tail h.params k

theorem SameRing.occupancy {s t : State} (h : SameRing s t) : t.occupancy = s.occupancy :=
  State.occupancy_congr h.head h.tail h.params

theorem SameRing.setTarget {s t : State} (h : SameRing s t) (i : Nat) (v : Immediate) :
    SameRing s (t.setTarget i v) :=
  ⟨by simp [h.params], by simp [h.mem], by simp [h.head], by simp [h.tail], by simp [h.arrivals]⟩

theorem SameRing.enqueue {s t : State} (h : SameRing s t) (b : Byte) :
    SameRing (enqueue b s).1 (Machine.enqueue b t).1 := by
  have ho := h.occupancy
  have hp := h.params
  by_cases hf : s.occupancy = s.params.capacity
  · rw [enqueue_full hf, enqueue_full (by rw [ho, hp, hf])]
    exact ⟨h.params, h.mem, h.head, h.tail, h.arrivals⟩
  · rw [enqueue_room hf, enqueue_room (by rw [ho, hp]; exact hf)]
    exact ⟨h.params, by simp [h.mem, State.pushSlot, h.head, hp], by simp [State.countUp, h.head, h.params], h.tail, h.arrivals⟩

theorem SameRing.deliver {s t : State} (h : SameRing s t) (bs : List Byte) :
    SameRing (deliver bs s) (Machine.deliver bs t) := by
  induction bs generalizing s t with
  | nil => exact h
  | cons b bs ih => exact ih (h.enqueue b)

theorem SameRing.interrupt {s t : State} (h : SameRing s t) : SameRing s.interrupt t.interrupt := by
  have ha := h.arrivals
  cases hs : s.arrivals with
  | nil => rw [State.interrupt_of_quiet hs, State.interrupt_of_quiet (by rw [ha, hs])]; exact h
  | cons bs r =>
    simp only [State.interrupt, ha, hs]
    apply SameRing.deliver
    exact { params := h.params, mem := h.mem, head := h.head, tail := h.tail, arrivals := rfl }

theorem SameRing.trans {s t u : State} (h : SameRing s t) (g : SameRing t u) : SameRing s u :=
  ⟨g.params.trans h.params, g.mem.trans h.mem, g.head.trans h.head, g.tail.trans h.tail, g.arrivals.trans h.arrivals⟩

theorem SameRing.signal {s t : State} (h : SameRing s t) (c : Condition) : SameRing s (t.signal c) :=
  ⟨h.params, h.mem, h.head, h.tail, h.arrivals⟩

theorem SameRing.storage {s t : State} (h : SameRing s t) : SameStorage s t := ⟨h.mem, h.head⟩

/-- One more access: the ring of `s` after `j` interrupts is, after the next, that of `s` after `j + 1`. -/
theorem SameRing.next {s t : State} {j : Nat} (h : SameRing (State.interrupt^[j] s) t) :
    SameRing (State.interrupt^[j + 1] s) t.interrupt := by
  rw [Function.iterate_succ_apply']; exact h.interrupt

theorem grows_interrupts {s : State} (h : s.occupancy ≤ s.params.capacity) (j : Nat) : Grows s (State.interrupt^[j] s) := by
  induction j with
  | zero => exact Grows.refl h
  | succ j ih => rw [Function.iterate_succ_apply']; exact ih.trans (grows_interrupt ih.bound)

theorem State.interrupts_of_quiet {s : State} (h : s.arrivals = []) (j : Nat) : State.interrupt^[j] s = s :=
  Function.iterate_fixed (State.interrupt_of_quiet h) j

theorem SameRing.interrupts {s t : State} (h : SameRing s t) (j : Nat) :
    SameRing (State.interrupt^[j] s) (State.interrupt^[j] t) := by
  induction j with
  | zero => exact h
  | succ j ih => rw [Function.iterate_succ_apply', Function.iterate_succ_apply']; exact ih.interrupt

theorem State.interrupts_tail (s : State) (j : Nat) : (State.interrupt^[j] s).tail = s.tail := by
  induction j with
  | zero => rfl
  | succ j ih => rw [Function.iterate_succ_apply', State.interrupt_tail, ih]

theorem State.interrupts_params (s : State) (j : Nat) : (State.interrupt^[j] s).params = s.params := by
  induction j with
  | zero => rfl
  | succ j ih => rw [Function.iterate_succ_apply', State.interrupt_params, ih]

theorem wf_interrupts {s : State} (h : s.mem.wf s.params) (j : Nat) : (State.interrupt^[j] s).mem.wf s.params := by
  induction j with
  | zero => exact h
  | succ j ih =>
    rw [Function.iterate_succ_apply']
    rw [← State.interrupts_params s j] at ih ⊢
    exact wf_interrupt ih

/-! ### `head` stays a number of `CW` bits -/

theorem head_lt_enqueue {s : State} (h : s.head < s.params.counterRange) (b : Byte) :
    (enqueue b s).1.head < s.params.counterRange := by
  unfold enqueue
  split
  · exact h
  · exact s.countUp_lt _ _

theorem head_lt_deliver {s : State} (h : s.head < s.params.counterRange) (bs : List Byte) :
    (deliver bs s).head < s.params.counterRange := by
  induction bs generalizing s with
  | nil => exact h
  | cons b bs ih =>
    have := ih (s := (enqueue b s).1) (by rw [enqueue_params]; exact head_lt_enqueue h b)
    rwa [enqueue_params] at this

theorem head_lt_interrupt {s : State} (h : s.head < s.params.counterRange) :
    s.interrupt.head < s.params.counterRange := by
  unfold State.interrupt
  split
  · exact h
  · rename_i bs rest _
    exact head_lt_deliver (s := { s with arrivals := rest }) h bs

theorem head_lt_interrupts {s : State} (h : s.head < s.params.counterRange) (j : Nat) :
    (State.interrupt^[j] s).head < s.params.counterRange := by
  induction j with
  | zero => exact h
  | succ j ih =>
    rw [Function.iterate_succ_apply']
    rw [← State.interrupts_params s j] at ih ⊢
    exact head_lt_interrupt ih

/-! ### Delivery without overflow -/

theorem unread_deliver {s : State} {bs : List Byte} (h : s.occupancy + bs.length ≤ s.params.capacity) :
    (deliver bs s).unread = s.unread ++ bs := by
  induction bs generalizing s with
  | nil => simp [deliver]
  | cons b bs ih =>
    simp only [List.length_cons] at h
    have ho := occupancy_enqueue (s := s) (by omega) b
    rw [deliver, ih (by rw [enqueue_params]; omega), unread_enqueue (by omega), List.append_assoc, List.singleton_append]

/-- An interrupt moves bytes from the schedule into the buffer and changes nothing of the stream as a whole, as long as the
buffer holds them all. -/
theorem State.stream_interrupt {s : State} (h : s.occupancy + s.arrivals.flatten.length ≤ s.params.capacity) :
    s.interrupt.stream = s.stream := by
  unfold State.stream
  rw [State.interrupt_arrivals]
  cases ha : s.arrivals with
  | nil => rw [State.interrupt_of_quiet ha]; simp
  | cons bs rest =>
    have hd : (deliver bs { s with arrivals := rest }).unread = s.unread ++ bs := by
      rw [unread_deliver]; · rfl
      · simp only [ha, List.flatten_cons, List.length_append] at h
        show s.occupancy + _ ≤ s.params.capacity
        omega
    unfold State.interrupt
    rw [ha]
    simp only [hd, List.tail_cons, List.flatten_cons, List.append_assoc]

theorem State.stream_length (s : State) : s.stream.length = s.occupancy + s.arrivals.flatten.length := by
  simp only [State.stream, List.length_append, State.unread_length]

/-! ### ADVANCE -/

theorem consume_ok {s : State} {n : Count} (h : n.toNat ≤ s.interrupt.occupancy) :
    consume n s = (s.interrupt.interrupt.moveTail n, true) := by
  simp [consume, State.underruns, Nat.not_lt.mpr h]

theorem consume_underrun {s : State} {n : Count} (h : s.interrupt.occupancy < n.toNat) :
    consume n s = (s.interrupt.raiseUnderrun n, false) := by
  simp [consume, State.underruns, h]

theorem State.byteAt_moveTail (s : State) (n : Count) (k : Nat) :
    (s.moveTail n).byteAt k = s.byteAt (n.toNat + k) := by
  simp only [State.byteAt_eq, State.moveTail_mem, State.moveTail_tail, State.moveTail_params]
  congr 1
  rw [← Nat.add_assoc]
  exact (Nat.ModEq.add_right k (s.countUp_slot s.tail n.toNat))

theorem State.occupancy_moveTail {s : State} {n : Count} (h : n.toNat ≤ s.occupancy) :
    (s.moveTail n).occupancy = s.occupancy - n.toNat := by
  have hl := occ_lt s.params s.head s.tail
  have hm := occ_modEq s.params s.head s.tail
  have hc := (s.countUp_modEq s.tail n.toNat).symm.add_right (s.occupancy - n.toNat)
  refine occ_eq_of_modEq (show s.occupancy - n.toNat < _ from lt_of_le_of_lt (Nat.sub_le _ _) hl) ?_
  refine hm.trans (Nat.ModEq.trans ?_ hc)
  rw [Nat.add_assoc, Nat.add_sub_cancel' h]
  rfl

theorem State.consumerConditions_moveTail (s : State) (n : Count) :
    (s.moveTail n).consumerConditions = s.consumerConditions := rfl

theorem State.unread_moveTail {s : State} {n : Count} (h : n.toNat ≤ s.occupancy) :
    (s.moveTail n).unread = s.unread.drop n.toNat := by
  apply List.ext_getElem?
  intro k
  rw [List.getElem?_drop]
  by_cases hk : k < s.occupancy - n.toNat
  · rw [State.unread_getElem? _ (by rw [State.occupancy_moveTail h]; exact hk),
      State.unread_getElem? _ (by omega), State.byteAt_moveTail]
  · rw [List.getElem?_eq_none, List.getElem?_eq_none] <;>
      simp only [State.unread_length, State.occupancy_moveTail h] <;> omega

theorem State.stream_moveTail {s : State} {n : Count} (h : n.toNat ≤ s.occupancy) :
    (s.moveTail n).stream = s.stream.drop n.toNat := by
  unfold State.stream
  rw [State.unread_moveTail h, List.drop_append_of_le_length (by rw [State.unread_length]; exact h)]
  rfl

theorem SameRing.stream {s t : State} (h : SameRing s t) : t.stream = s.stream := by
  unfold State.stream
  rw [State.unread_congr h.occupancy fun k _ => h.byteAt k, h.arrivals]

theorem State.stream_getElem? {s : State} {k : Nat} (h : k < s.occupancy) : s.stream[k]? = some (s.byteAt k) := by
  unfold State.stream
  rw [List.getElem?_append_left (by rw [State.unread_length]; exact h), State.unread_getElem? _ h]

end Sys2Proof.Machine
end

