-- ==== Sys2Proof/Laws/Throttle.lean ====
section
/-! SUPPORT. The clamp and the ramp: both stay within the actuator's scale, and the ramp moves toward its target (R30, R153,
R172, R175). -/

namespace Sys2Proof.Machine

theorem inScale_iff (p : Params) (v : Nat) : inScale p v = true ↔ p.throttleLo ≤ v ∧ v ≤ p.throttleHi := by
  simp [inScale]

/-- The clamp as a maximum and a minimum. -/
theorem clamp_eq (p : Params) (v : Nat) : clamp p v = max p.throttleLo (min v p.throttleHi) := by
  have := p.throttle_range
  unfold clamp
  split
  · omega
  · split <;> omega

theorem inScale_clamp (p : Params) (v : Nat) : inScale p (clamp p v) = true := by
  have := p.throttle_range
  rw [inScale_iff, clamp_eq]; omega

theorem absdiff_eq (a b : Nat) : absdiff a b = (a - b) + (b - a) := by
  unfold absdiff
  split <;> omega

/-- One channel's step (R170): up by DELTA, down by DELTA, or onto the target. -/
theorem rampValue_eq (p : Params) (c t : Nat) :
    rampValue p c t =
      if c + p.delta < t then c + p.delta else if t + p.delta < c then c - p.delta else t := by
  unfold rampValue
  rw [absdiff_eq]
  split
  · split
    · rw [if_pos (by omega)]
    · rw [if_neg (by omega), if_pos (by omega)]
  · rw [if_neg (by omega), if_neg (by omega)]

theorem inScale_rampValue {p : Params} {c t : Nat} (hc : inScale p c = true) (ht : inScale p t = true) :
    inScale p (rampValue p c t) = true := by
  rw [inScale_iff] at *
  rw [rampValue_eq]
  split
  · omega
  · split <;> omega

theorem Drive.inScale_iff (p : Params) (d : Drive) :
    d.inScale p = true ↔ d.values.length = p.channels ∧ ∀ v ∈ d.values, Machine.inScale p v = true := by
  simp [Drive.inScale]

theorem Drive.inScale_get {p : Params} {d : Drive} (h : d.inScale p = true) {i : Nat} (hi : i ∈ p.channelNumbers) :
    Machine.inScale p (d.get i) = true := by
  obtain ⟨hl, hv⟩ := (Drive.inScale_iff p d).mp h
  obtain ⟨h1, h2⟩ := (p.mem_channelNumbers i).mp hi
  unfold Drive.get
  rw [List.getD_eq_getElem _ _ (show i - 1 < d.values.length by omega)]
  exact hv _ (List.getElem_mem _)

theorem Drive.inScale_of {p : Params} {f : Nat → Nat} (h : ∀ i ∈ p.channelNumbers, Machine.inScale p (f i) = true) :
    (Drive.of p f).inScale p = true := by
  rw [Drive.inScale_iff]
  refine ⟨Drive.length_of p f, fun v hv => ?_⟩
  obtain ⟨i, hi, rfl⟩ := List.mem_map.mp hv
  exact h i hi

theorem inScale_rampDrive {p : Params} {c t : Drive} (hc : c.inScale p = true) (ht : t.inScale p = true) :
    (rampDrive p c t).inScale p = true :=
  Drive.inScale_of fun _ hi => inScale_rampValue (Drive.inScale_get hc hi) (Drive.inScale_get ht hi)

theorem inScale_set_clamp {p : Params} {d : Drive} (h : d.inScale p = true) (i : Nat) (v : Nat) :
    (d.set p i (clamp p v)).inScale p = true :=
  Drive.inScale_of fun j hj => by
    split
    · exact inScale_clamp p v
    · exact Drive.inScale_get h hj

end Sys2Proof.Machine
end

