-- ==== Sys2Proof/Laws/Scan.lean ====
section
/-! SUPPORT. What the Dispatcher's reads and a scan pass can do, under any interrupt schedule (R130 to R134, R139, R150 to
R152). -/

namespace Sys2Proof.Machine

/-! ### Reading ahead -/

@[simp] theorem readAhead_fst (k : Byte) (s : State) : (readAhead k s).1 = s.interrupt := (rfl)
@[simp] theorem readAhead_snd (k : Byte) (s : State) : (readAhead k s).2 = s.interrupt.byteAt k.toNat := (rfl)
@[simp] theorem readOccupancy_fst (s : State) : (readOccupancy s).1 = s.interrupt := (rfl)
@[simp] theorem readOccupancy_snd (s : State) : (readOccupancy s).2 = s.interrupt.occupancy := (rfl)

theorem belowGuard_iff (p : Params) (n : Nat) : belowGuard p n = true ↔ n < p.minMsgSize := by
  simp [belowGuard]

theorem isSentinelPair_iff (p : Params) (b0 b1 : Byte) : isSentinelPair p b0 b1 = true ↔ b0 = p.sentinel ∧ b1 = p.sentinel := by
  simp [isSentinelPair]

theorem frameAdvance_toNat (len : Byte) : (frameAdvance len).toNat = 2 + len.toNat := by
  have := len.isLt
  simp only [frameAdvance, BitVec.toNat_ofNat]
  omega

theorem hiOffset_toNat {p : Params} {i : Nat} (h : i ∈ p.channelNumbers) : (hiOffset i).toNat = 2 + 2 * i := by
  have := (p.mem_channelNumbers i).mp h
  have := p.channels_range
  simp only [hiOffset, BitVec.toNat_ofNat]
  omega

theorem loOffset_toNat {p : Params} {i : Nat} (h : i ∈ p.channelNumbers) : (loOffset i).toNat = 3 + 2 * i := by
  have := (p.mem_channelNumbers i).mp h
  have := p.channels_range
  simp only [loOffset, BitVec.toNat_ofNat]
  omega

/-! ### The Dispatcher: everything it leaves alone -/

/-- `t` differs from `s` only by the interrupts before some number of accesses, by the targets, and by the record of
conditions. -/
structure Interprets (s t : State) : Prop where
  ring : ∃ j, SameRing (State.interrupt^[j] s) t
  current : t.current = s.current
  faultUnderrun : t.faultUnderrun = s.faultUnderrun
  sink : t.sink = s.sink
  result : t.result = s.result
  requests : t.requests = s.requests
  draws : t.draws = s.draws
  inScale : s.target.inScale s.params = true → t.target.inScale s.params = true

theorem Interprets.tail {s t : State} (h : Interprets s t) : t.tail = s.tail := by
  obtain ⟨j, hj⟩ := h.ring
  rw [hj.tail, State.interrupts_tail]

theorem Interprets.params {s t : State} (h : Interprets s t) : t.params = s.params := by
  obtain ⟨j, hj⟩ := h.ring
  rw [hj.params, State.interrupts_params]

theorem Interprets.grows {s t : State} (h : Interprets s t) (hs : s.occupancy ≤ s.params.capacity) : Grows s t := by
  obtain ⟨j, hj⟩ := h.ring
  have g := grows_interrupts hs j
  have ho := hj.occupancy
  exact ⟨h.params, h.tail, by have := g.le; omega,
    by have := g.bound; rw [State.interrupts_params] at this; rw [h.params]; omega,
    fun k hk => (hj.byteAt k).trans (g.byteAt k hk)⟩

theorem Interprets.quiet {s t : State} (h : Interprets s t) (hq : s.arrivals = []) :
    t.arrivals = [] ∧ t.mem = s.mem ∧ t.head = s.head := by
  obtain ⟨j, hj⟩ := h.ring
  rw [State.interrupts_of_quiet hq] at hj
  exact ⟨hj.arrivals.trans hq, hj.mem, hj.head⟩

theorem Interprets.refl (s : State) : Interprets s s :=
  ⟨⟨0, SameRing.refl s⟩, rfl, rfl, rfl, rfl, rfl, rfl, id⟩

theorem Interprets.trans {s t u : State} (h : Interprets s t) (g : Interprets t u) : Interprets s u where
  ring := by
    obtain ⟨j, hj⟩ := h.ring
    obtain ⟨k, hk⟩ := g.ring
    refine ⟨k + j, ?_⟩
    rw [Function.iterate_add_apply]
    exact (hj.interrupts k).trans hk
  current := g.current.trans h.current
  faultUnderrun := g.faultUnderrun.trans h.faultUnderrun
  sink := g.sink.trans h.sink
  result := g.result.trans h.result
  requests := g.requests.trans h.requests
  draws := g.draws.trans h.draws
  inScale hs := by
    have := g.inScale (by rw [h.params]; exact h.inScale hs)
    rwa [h.params] at this

theorem interprets_interrupt (s : State) : Interprets s s.interrupt where
  ring := ⟨1, SameRing.refl _⟩
  current := by simp
  faultUnderrun := by simp
  sink := by simp
  result := by simp
  requests := by simp
  draws := by simp
  inScale := by simp

theorem interprets_signal (s : State) (c : Condition) : Interprets s (s.signal c) :=
  ⟨⟨0, (SameRing.refl s).signal c⟩, rfl, rfl, rfl, rfl, rfl, rfl, id⟩

theorem interprets_setTarget (s : State) (i : Nat) (v : Immediate) : Interprets s (s.setTarget i v) where
  ring := ⟨0, (SameRing.refl s).setTarget i v⟩
  current := by simp
  faultUnderrun := by simp
  sink := by simp
  result := by simp
  requests := by simp
  draws := by simp
  inScale h := by rw [State.setTarget_target]; exact inScale_set_clamp h i _

theorem interprets_readTarget (i : Nat) (s : State) : Interprets s (readTarget i s) :=
  ((interprets_interrupt s).trans (interprets_interrupt _)).trans (interprets_setTarget _ _ _)

theorem interprets_readTargets (is : List Nat) (s : State) : Interprets s (readTargets is s) := by
  induction is generalizing s with
  | nil => exact Interprets.refl s
  | cons i is ih => exact (interprets_readTarget i s).trans (ih _)

theorem interprets_applyTargets (i : Nat) (vs : List Immediate) (s : State) : Interprets s (applyTargets i vs s) := by
  induction vs generalizing i s with
  | nil => exact Interprets.refl s
  | cons v vs ih => exact (interprets_setTarget s i v).trans (ih _ _)

/-- Everything `DISPATCH` can do (R150): the bytes it may not touch, and what it keeps. -/
theorem interprets_interpretFrame (s : State) : Interprets s (interpretFrame s) := by
  unfold interpretFrame
  simp only [readAhead_fst, readAhead_snd]
  split
  · exact (interprets_interrupt s).trans (interprets_readTargets _ _)
  · exact (interprets_interrupt s).trans (interprets_signal _ _)

/-- One channel's target, its two bytes each as they stand at their own read (R64, R193): two accesses. -/
theorem readTarget_racing {s u : State} {j : Nat} (h : SameRing (State.interrupt^[j] s) u) {i : Nat}
    (hi : i ∈ s.params.channelNumbers) :
    SameRing (State.interrupt^[j + 2] s) (readTarget i u) ∧
      (readTarget i u).target = u.target.set s.params i
        (clamp s.params (u16be ((State.interrupt^[j + 1] s).byteAt (2 + 2 * i))
          ((State.interrupt^[j + 2] s).byteAt (3 + 2 * i))).toNat) := by
  have h1 := h.next
  have h2 := h1.next
  have hp : u.params = s.params := by rw [h.params, State.interrupts_params]
  refine ⟨h2.setTarget _ _, ?_⟩
  simp only [readTarget, readAhead_fst, readAhead_snd, State.setTarget_target, State.interrupt_target, h1.byteAt,
    h2.byteAt, State.interrupt_params, hp, hiOffset_toNat hi, loOffset_toNat hi]

/-- The loop of `SET_THROTTLE` from channel `i` on, `n` turns (R151). -/
theorem readTargets_racing {s u : State} {j i n : Nat} (hi : 1 ≤ i) (hn : i + n = s.params.channels + 1)
    (h : SameRing (State.interrupt^[j + 2 * (i - 1)] s) u)
    (ht : ∀ k ∈ s.params.channelNumbers, k < i → u.target.get k = s.racingTarget j k) :
    SameRing (State.interrupt^[j + 2 * s.params.channels] s) (readTargets (List.range' i n) u) ∧
      ∀ k ∈ s.params.channelNumbers, (readTargets (List.range' i n) u).target.get k = s.racingTarget j k := by
  induction n generalizing i u with
  | zero =>
    have : i - 1 = s.params.channels := by omega
    rw [this] at h
    exact ⟨h, fun k hk => ht k hk (by have := (s.params.mem_channelNumbers k).mp hk; omega)⟩
  | succ n ih =>
    obtain ⟨r, t⟩ := readTarget_racing h (i := i) (by rw [Params.mem_channelNumbers]; omega)
    rw [List.range'_succ]
    refine ih (i := i + 1) (by omega) (by omega) ?_ fun k hk hlt => ?_
    · rw [show j + 2 * (i + 1 - 1) = j + 2 * (i - 1) + 2 by omega]
      exact r
    · rw [t, Drive.get_set hk]
      split
      · subst k
        rw [State.racingTarget, show j + 2 * i - 1 = j + 2 * (i - 1) + 1 by omega, show j + 2 * i = j + 2 * (i - 1) + 2 by omega]
      · exact ht k hk (by omega)

theorem readTargets_length (is : List Nat) (s : State) (h : is ≠ [] ∨ s.target.values.length = s.params.channels) :
    (readTargets is s).target.values.length = s.params.channels := by
  induction is generalizing s with
  | nil => simpa [readTargets] using h
  | cons i is ih =>
    have hp := (interprets_readTarget i s).params
    rw [readTargets, ih (readTarget i s) (.inr ?_), hp]
    rw [hp]
    simp only [readTarget, State.setTarget_target, Drive.set, readAhead_fst, State.interrupt_params]
    exact Drive.length_of _ _

/-- `SET_THROTTLE` read byte by byte from the frame at the tail: two accesses for each channel (R150, R151). -/
theorem readThrottle_racing {s u : State} {j : Nat} (h : SameRing (State.interrupt^[j] s) u) :
    SameRing (State.interrupt^[j + 2 * s.params.channels] s) (readThrottle u) ∧
      (readThrottle u).target = Drive.of s.params (s.racingTarget j) := by
  have hp : u.params = s.params := by rw [h.params, State.interrupts_params]
  have hl := readTargets_length u.params.channelNumbers u (.inl ?_)
  · unfold readThrottle
    rw [hp] at hl ⊢
    obtain ⟨r, t⟩ := readTargets_racing (i := 1) (n := s.params.channels) le_rfl (by omega) h
      fun k hk hlt => absurd hlt (by have := (s.params.mem_channelNumbers k).mp hk; omega)
    exact ⟨r, (Drive.eq_of hl).trans (Drive.of_congr t)⟩
  · have := u.params.channels_range
    simp only [Params.channelNumbers, ne_eq, List.range'_eq_nil_iff]
    omega

/-- `DISPATCH` of CMD_SET_THROTTLE, read byte by byte: one access and two for each channel (R150, R151). -/
theorem interpretFrame_throttle {s u : State} {j : Nat} (h : SameRing (State.interrupt^[j] s) u)
    (hc : (State.interrupt^[j + 1] s).byteAt 3 = s.params.cmdSetThrottle) :
    SameRing (State.interrupt^[j + 1 + 2 * s.params.channels] s) (interpretFrame u) ∧
      (interpretFrame u).target = Drive.of s.params (s.racingTarget (j + 1)) := by
  have h1 := h.next
  have hp : u.params = s.params := by rw [h.params, State.interrupts_params]
  have e : interpretFrame u = readThrottle u.interrupt := by
    unfold interpretFrame
    simp only [readAhead_fst, readAhead_snd]
    exact if_pos (by rw [hp]; exact (h1.byteAt 3).trans hc)
  rw [e]
  exact readThrottle_racing h1

/-- Bytes that are unread before the reads stand at the reads (R63). -/
theorem State.racingTarget_unread {s : State} (hb : s.occupancy ≤ s.params.capacity) {i : Nat} (h : 3 + 2 * i < s.occupancy)
    (j : Nat) : s.racingTarget j i = s.frameTarget i := by
  unfold State.racingTarget State.frameTarget
  rw [(grows_interrupts hb _).byteAt _ (by omega), (grows_interrupts hb _).byteAt _ h]

/-- The same counted from the snapshot of a pass. -/
theorem State.racingTarget_snapshot {s : State} (hb : s.occupancy ≤ s.params.capacity) {i j : Nat}
    (h : 3 + 2 * i < s.interrupt.occupancy) (hj : 1 ≤ j) (hi : 1 ≤ i) : s.racingTarget j i = s.interrupt.frameTarget i := by
  rw [← State.racingTarget_unread (grows_interrupt hb).bound h (j - 1)]
  unfold State.racingTarget
  rw [State.interrupt_params, ← Function.iterate_succ_apply State.interrupt, ← Function.iterate_succ_apply State.interrupt,
    show (j - 1 + 2 * i - 1).succ = j + 2 * i - 1 by omega, show (j - 1 + 2 * i).succ = j + 2 * i by omega]

/-- `DISPATCH` of any other command: one access (R152). -/
theorem interpretFrame_reserved {s u : State} {j : Nat} (h : SameRing (State.interrupt^[j] s) u)
    (hc : (State.interrupt^[j + 1] s).byteAt 3 ≠ s.params.cmdSetThrottle) :
    interpretFrame u = u.interrupt.signal (.unknownCommand ((State.interrupt^[j + 1] s).byteAt 3)) ∧
      SameRing (State.interrupt^[j + 1] s) (interpretFrame u) := by
  have h1 := h.next
  have e : interpretFrame u = u.interrupt.signal (.unknownCommand ((State.interrupt^[j + 1] s).byteAt 3)) := by
    unfold interpretFrame
    simp only [readAhead_fst, readAhead_snd, show (3 : Byte).toNat = 3 from rfl, h1.byteAt 3,
      show u.params = s.params by rw [h.params, State.interrupts_params]]
    exact if_neg hc
  exact ⟨e, e ▸ h1.signal _⟩

/-- What `DISPATCH` makes of the targets when the frame at the tail has arrived as far as it is read (R150 to R152). -/
theorem interpretFrame_target {s : State} (hb : s.occupancy ≤ s.params.capacity) (h4 : 4 ≤ s.occupancy)
    (hf : s.byteAt 3 = s.params.cmdSetThrottle → s.params.frameBytes ≤ s.occupancy) :
    (interpretFrame s).target =
      if s.byteAt 3 = s.params.cmdSetThrottle then Drive.of s.params s.frameTarget else s.target := by
  have h3 : (State.interrupt^[0 + 1] s).byteAt 3 = s.byteAt 3 := (grows_interrupts hb 1).byteAt 3 (by omega)
  by_cases hc : s.byteAt 3 = s.params.cmdSetThrottle
  · have hl := hf hc
    unfold Params.frameBytes at hl
    rw [if_pos hc, (interpretFrame_throttle (j := 0) (SameRing.refl s) (h3.trans hc)).2]
    refine Drive.of_congr fun i hi => State.racingTarget_unread hb ?_ 1
    have := (s.params.mem_channelNumbers i).mp hi
    omega
  · rw [if_neg hc, (interpretFrame_reserved (j := 0) (SameRing.refl s) (fun h => hc (h3.symm.trans h))).1]
    simp

/-! ### A scan pass -/

theorem State.locates_iff (s : State) :
    s.locates = true ↔ s.params.minMsgSize ≤ s.occupancy ∧ s.byteAt 0 = s.params.sentinel ∧ s.byteAt 1 = s.params.sentinel := by
  unfold State.locates
  rw [Bool.and_eq_true, isSentinelPair_iff, Bool.not_eq_true', ← Bool.not_eq_true, belowGuard_iff, Nat.not_lt]

/-- Below the guard the pass ends with its snapshot (R131). -/
theorem scanPass_wait {s : State} (h : s.interrupt.occupancy < s.params.minMsgSize) :
    scanPass s = (s.interrupt, .outcome .wait) := by
  have := (belowGuard_iff s.params s.interrupt.occupancy).mpr h
  simp only [scanPass, readOccupancy_fst, readOccupancy_snd, this, if_true]

theorem scanPass_inspect {s : State} (h : s.params.minMsgSize ≤ s.interrupt.occupancy) : scanPass s = inspect s.interrupt := by
  have : belowGuard s.params s.interrupt.occupancy = false := by
    rw [Bool.eq_false_iff]; intro hc; have := (belowGuard_iff _ _).mp hc; omega
  simp only [scanPass, readOccupancy_fst, readOccupancy_snd, this, Bool.false_eq_true, if_false]

/-- Past the guard the two bytes at the tail are those of the snapshot, whatever is pushed meanwhile (R62, R63). -/
theorem inspect_eq {s : State} (hb : s.occupancy ≤ s.params.capacity) (h : 2 ≤ s.occupancy) :
    inspect s =
      if isSentinelPair s.params (s.byteAt 0) (s.byteAt 1) then takeFrame s.interrupt.interrupt
      else resync (s.byteAt 0) (s.byteAt 1) s.interrupt.interrupt := by
  have g1 := grows_interrupt hb
  have g2 := g1.trans (grows_interrupt g1.bound)
  have h0 : s.interrupt.byteAt 0 = s.byteAt 0 := g1.byteAt 0 (by omega)
  have h1 : s.interrupt.interrupt.byteAt 1 = s.byteAt 1 := g2.byteAt 1 (by omega)
  simp only [inspect, readAhead_fst, readAhead_snd]
  rw [show (0 : Byte).toNat = 0 from rfl, show (1 : Byte).toNat = 1 from rfl, h0, h1]

theorem resync_eq {s : State} (h : 1 ≤ s.interrupt.occupancy) (b0 b1 : Byte) :
    resync b0 b1 s =
      ((s.signal (.frameMisalignment b0 b1)).interrupt.interrupt.moveTail 1, .outcome .resync) := by
  have ho := ((SameRing.refl s).signal (.frameMisalignment b0 b1)).interrupt.occupancy
  unfold resync
  rw [consume_ok (show (1 : Count).toNat ≤ _ by rw [ho]; exact h)]
  rfl

/-- The state in which a located frame's advance tests the occupancy. -/
def frameSeen (s : State) : State := (interpretFrame s).interrupt

theorem interprets_frameSeen (s : State) : Interprets s (frameSeen s) :=
  (interprets_interpretFrame s).trans (interprets_interrupt _)

/-- The located-frame branch (R132, R139): with the length byte of the frame at the tail, the advance goes through or
raises, by the occupancy at the moment of the advance. -/
theorem takeFrame_eq {s : State} (hb : s.occupancy ≤ s.params.capacity) (h : 3 ≤ s.occupancy) :
    takeFrame s =
      advanceOr .dispatched (consume (frameAdvance (s.byteAt 2)) (frameSeen s)) := by
  have g := (interprets_frameSeen s).grows hb
  simp only [takeFrame, readAhead_fst, readAhead_snd]
  rw [show (2 : Byte).toNat = 2 from rfl, show (interpretFrame s).interrupt = frameSeen s from rfl,
    g.byteAt 2 (by omega)]

/-- A pass that locates no frame past the guard (R133). -/
theorem scanPass_resync {s : State} (hb : s.occupancy ≤ s.params.capacity) (h6 : s.params.minMsgSize ≤ s.interrupt.occupancy)
    (hn : ¬(s.interrupt.byteAt 0 = s.params.sentinel ∧ s.interrupt.byteAt 1 = s.params.sentinel)) :
    scanPass s =
      (((s.interrupt.interrupt.interrupt.signal
        (.frameMisalignment (s.interrupt.byteAt 0) (s.interrupt.byteAt 1))).interrupt.interrupt).moveTail 1,
        .outcome .resync) := by
  have g1 := grows_interrupt hb
  have g2 := grows_interrupt g1.bound
  have g3 := grows_interrupt g2.bound
  have l2 := g2.le
  have l3 := g3.le
  have l4 := (grows_interrupt g3.bound).le
  have hm := s.params.minMsgSize_range.1
  have hp : isSentinelPair s.interrupt.params (s.interrupt.byteAt 0) (s.interrupt.byteAt 1) = false := by
    rw [State.interrupt_params]
    rw [Bool.eq_false_iff]
    exact fun hc => hn ((isSentinelPair_iff _ _ _).mp hc)
  rw [scanPass_inspect h6, inspect_eq g1.bound (by omega), hp, if_neg (by simp), resync_eq (by omega)]

/-- A pass that locates a frame at its snapshot (R132). -/
theorem scanPass_located {s : State} (hb : s.occupancy ≤ s.params.capacity) (hl : s.interrupt.locates = true) :
    scanPass s = advanceOr .dispatched
        (consume (frameAdvance (s.interrupt.byteAt 2)) (frameSeen s.interrupt.interrupt.interrupt)) ∧
      Grows s.interrupt s.interrupt.interrupt.interrupt := by
  obtain ⟨h6, h0, h1⟩ := (State.locates_iff _).mp hl
  have g1 := grows_interrupt hb
  have g2 := grows_interrupt g1.bound
  have g3 := g2.trans (grows_interrupt g2.bound)
  have le := g3.le
  have hm := s.params.minMsgSize_range.1
  rw [State.interrupt_params] at h6
  have hp := (isSentinelPair_iff _ _ _).mpr ⟨h0, h1⟩
  refine ⟨?_, g3⟩
  rw [scanPass_inspect h6, inspect_eq g1.bound (by omega), hp, if_pos rfl, takeFrame_eq g3.bound (by omega),
    g3.byteAt 2 (by omega)]

/-- A located frame whose advance fits the snapshot is consumed (R139). -/
theorem scanPass_dispatched {s : State} (hb : s.occupancy ≤ s.params.capacity) (hl : s.interrupt.locates = true)
    (hadv : 2 + (s.interrupt.byteAt 2).toNat ≤ s.interrupt.occupancy) :
    scanPass s =
      ((frameSeen s.interrupt.interrupt.interrupt).interrupt.interrupt.moveTail (frameAdvance (s.interrupt.byteAt 2)),
        .outcome .dispatched) := by
  obtain ⟨he, g3⟩ := scanPass_located hb hl
  have g4 := (interprets_frameSeen s.interrupt.interrupt.interrupt).grows g3.bound
  have g5 := grows_interrupt g4.bound
  have l3 := g3.le
  have l4 := g4.le
  have l5 := g5.le
  rw [he, consume_ok (by rw [frameAdvance_toNat]; omega)]
  rfl

/-- Where a located pass stands at the test of its advance, under any schedule: storage and `head` as after the interrupts
before its accesses so far, the targets as read byte by byte (R132, R139, R150, R193). -/
theorem frameSeen_racing {s : State} (hb : s.occupancy ≤ s.params.capacity) (hl : s.interrupt.locates = true) :
    SameRing (State.interrupt^[s.advanceAccess] s) (frameSeen s.interrupt.interrupt.interrupt).interrupt ∧
      (frameSeen s.interrupt.interrupt.interrupt).target =
        if s.interrupt.byteAt 3 = s.params.cmdSetThrottle then Drive.of s.params (s.racingTarget 4) else s.target := by
  obtain ⟨h6, -, -⟩ := (State.locates_iff _).mp hl
  rw [State.interrupt_params] at h6
  have hm := s.params.minMsgSize_range.1
  have hr : SameRing (State.interrupt^[3] s) s.interrupt.interrupt.interrupt := SameRing.refl _
  have h3 : (State.interrupt^[4] s).byteAt 3 = s.interrupt.byteAt 3 :=
    (grows_interrupts (grows_interrupt hb).bound 3).byteAt 3 (by omega)
  unfold State.advanceAccess frameSeen
  by_cases hc : s.interrupt.byteAt 3 = s.params.cmdSetThrottle
  · obtain ⟨hi, ht⟩ := interpretFrame_throttle hr (h3.trans hc)
    rw [if_pos hc, if_pos hc, show 6 + 2 * s.params.channels = 3 + 1 + 2 * s.params.channels + 1 + 1 by omega]
    exact ⟨hi.next.next, by rw [State.interrupt_target]; exact ht⟩
  · obtain ⟨he, hi⟩ := interpretFrame_reserved hr (fun h => hc (h3.symm.trans h))
    rw [if_neg hc, if_neg hc]
    refine ⟨hi.next.next, ?_⟩
    rw [he]
    simp

/-! ### Everything an advance and a scan pass can do, in every state -/

/-- `p` is what an operation that ends in an advance, or in WAIT, answers from `s`. -/
structure Scans (s : State) (p : State × Result) : Prop where
  storage : ∃ j, SameStorage (State.interrupt^[j] s) p.1
  params : p.1.params = s.params
  current : p.1.current = s.current
  sink : p.1.sink = s.sink
  fault : p.1.faultUnderrun = (s.faultUnderrun || p.2 == .fault)
  tail_lt : s.tail < s.params.counterRange → p.1.tail < s.params.counterRange
  inScale : s.target.inScale s.params = true → p.1.target.inScale s.params = true
  bound : s.occupancy ≤ s.params.capacity → p.2 ≠ .fault → p.1.occupancy ≤ p.1.params.capacity
  raised : p.2 = .fault → ∃ (n : Count) (u : State) (j : Nat), u.tail = s.tail ∧ SameStorage (State.interrupt^[j] s) u ∧
    u.occupancy < n.toNat ∧ p.1 = u.raiseUnderrun n

theorem Scans.quiet {s : State} {p : State × Result} (h : Scans s p) (hq : s.arrivals = []) :
    p.1.mem = s.mem ∧ p.1.head = s.head := by
  obtain ⟨j, hj⟩ := h.storage
  rwa [State.interrupts_of_quiet hq] at hj

theorem scans_consume {s t : State} (h : Interprets s t) (n : Count) (r : Result) (hr : r ≠ .fault) :
    Scans s ((consume n t).1, if (consume n t).2 then r else .fault) := by
  have h1 := h.trans (interprets_interrupt t)
  by_cases hn : n.toNat ≤ t.interrupt.occupancy
  · have h2 := h1.trans (interprets_interrupt _)
    obtain ⟨j, hj⟩ := h2.ring
    rw [consume_ok hn]
    refine ⟨⟨j, hj.storage⟩, h2.params, h2.current, h2.sink, by cases r <;> simp_all [h.faultUnderrun],
      fun _ => ?_, h2.inScale, fun hb _ => ?_, fun hf => absurd hf hr⟩
    · rw [← h2.params]; exact State.countUp_lt _ _ _
    · have g := h2.grows hb
      have hle := (grows_interrupt (h1.grows hb).bound).le
      have gb := g.bound
      simp only
      rw [State.occupancy_moveTail (by omega), State.moveTail_params]
      omega
  · obtain ⟨j, hj⟩ := h1.ring
    rw [consume_underrun (Nat.lt_of_not_le hn)]
    refine ⟨⟨j, hj.storage⟩, h1.params, h1.current, h1.sink, by simp, fun _ => ?_, h1.inScale,
      fun _ hf => absurd rfl hf, fun _ => ⟨n, _, j, h1.tail, hj.storage, Nat.lt_of_not_le hn, rfl⟩⟩
    rw [← h1.params]; exact Nat.mod_lt _ (Params.counterRange_pos _)

theorem scans_advance {s t : State} (h : Interprets s t) (o : ScanOutcome) (n : Count) :
    Scans s (advanceOr o (consume n t)) := scans_consume h n (.outcome o) (by simp)

theorem scans_resync {s t : State} (h : Interprets s t) (b0 b1 : Byte) : Scans s (resync b0 b1 t) :=
  scans_advance (h.trans (interprets_signal t _)) _ _

theorem scans_takeFrame {s t : State} (h : Interprets s t) : Scans s (takeFrame t) :=
  scans_advance (h.trans (interprets_frameSeen t)) _ _

/-- Everything a scan pass can do (R130), in every state and under every schedule. -/
theorem scans_scanPass (s : State) : Scans s (scanPass s) := by
  have h1 := interprets_interrupt s
  unfold scanPass
  simp only [readOccupancy_fst, readOccupancy_snd]
  split
  · exact ⟨⟨1, SameRing.storage (SameRing.refl _)⟩, h1.params, h1.current, h1.sink, by simp, by simp, h1.inScale,
      fun hb _ => (h1.grows hb).bound, by simp⟩
  · have h3 := (h1.trans (interprets_interrupt _)).trans (interprets_interrupt _)
    unfold inspect
    simp only [readAhead_fst, readAhead_snd]
    split
    · exact scans_takeFrame h3
    · exact scans_resync h3 _ _

end Sys2Proof.Machine
end

