-- ==== Sys2Proof/Laws/Exec.lean ====
section
/-! SUPPORT. What exec and a step can do: every operation completes, and a step is one of four things. -/

namespace Sys2Proof.Machine

/-- Every operation completes with a next state: none waits and none stops (R190 case 2). -/
theorem exec_answers (i : Instr) (s : State) : ∃ t, exec i s = .next t := by
  cases i <;> exact ⟨_, rfl⟩

/-- A step that answers a next state was fault-free and performed one instruction, or held a frame back (R131). -/
theorem step_next {s t : State} (h : step s = .next t) :
    s.faultUnderrun = false ∧
      ((∃ i u, fetch s = .instr i u ∧ exec i u = .next t) ∨
        ∃ u, fetch s = .wait u ∧ t = { u with result := .outcome .wait }) := by
  unfold step at h
  split at h
  · simp at h
  · rename_i hf
    refine ⟨by simpa using hf, ?_⟩
    split at h
    · exact .inl ⟨_, _, ‹_›, h⟩
    · simp only [finish, Host.Outcome.next.injEq] at h
      exact .inr ⟨_, ‹_›, h.symm⟩
    · simp at h

/-- The fetch takes a request and touches nothing else. -/
theorem fetch_instr {s u : State} {i : Instr} (h : fetch s = .instr i u) :
    ∃ rs, u = { s with requests := rs } := by
  unfold fetch fetchDecoded at h
  split at h
  · simp only [Fetched.instr.injEq] at h; exact ⟨s.requests, h.2.symm⟩
  · split at h
    · split at h
      · simp only [Fetched.instr.injEq] at h; exact ⟨_, h.2.symm⟩
      · simp at h
    · simp at h
  · split at h
    · simp at h
    · split at h
      · simp only [Fetched.instr.injEq] at h; exact ⟨_, h.2.symm⟩
      · simp at h

theorem fetch_wait {s u : State} (h : fetch s = .wait u) : ∃ rs, u = { s with requests := rs } := by
  unfold fetch fetchDecoded at h
  split at h
  · simp at h
  · split at h
    · split at h <;> simp at h
    · simp at h
  · split at h
    · simp only [Fetched.wait.injEq] at h; exact ⟨_, h.symm⟩
    · split at h <;> simp at h

/-- As many bytes as values ask for are always decoded (R90). -/
theorem decodeValues_ok {n : Nat} {bs : List Byte} (h : 2 * n ≤ bs.length) :
    ∃ vs, decodeValues n bs = .ok vs ∧ vs.length = n := by
  induction n generalizing bs with
  | zero => exact ⟨[], by simp [decodeValues], rfl⟩
  | succ n ih =>
    match bs, h with
    | hi :: lo :: rest, h =>
      obtain ⟨vs, hv, hl⟩ := ih (bs := rest) (by simp only [List.length_cons] at h; omega)
      exact ⟨u16be hi lo :: vs, by simp [decodeValues, hv], by simp [hl]⟩
    | [_], h => simp at h; omega
    | [], h => simp at h

/-- A window of the stream always decodes: no byte sequence is illegal (R90). -/
theorem decodeWire_ok {p : Params} {bs : List Byte} (h : p.frameBytes ≤ bs.length) : ∃ i, decode p (.wire bs) = .ok i := by
  unfold Params.frameBytes at h
  match bs, h with
  | b0 :: b1 :: len :: cmd :: payload, h =>
    obtain ⟨vs, hv, hl⟩ := decodeValues_ok (n := p.channels) (bs := payload) (by simp only [List.length_cons] at h; omega)
    have := p.channels_range
    match vs, hl with
    | v1 :: v2 :: vs, _ =>
      simp only [decode, decodeWire, decodeFrame, decodeThrottle, hv]
      split <;> [split; skip] <;> exact ⟨_, rfl⟩
    | [_], hl => simp at hl; omega
    | [], hl => simp at hl; omega
  | [_, _, _], h => simp at h; omega
  | [_, _], h => simp at h; omega
  | [_], h => simp at h; omega
  | [], h => simp at h

/-- A fetch is refused for one of two reasons, both of a call: what stands at the tail always decodes (R90). -/
theorem fetch_rejected {s : State} {r : Refusal} (h : fetch s = .rejected r) :
    ∃ a p w rest, s.requests = .call a p w :: rest ∧
      ((a ≠ portOwner p ∧ r = .ownershipBroken a p) ∨
        (a = portOwner p ∧ ∃ e, decode s.params (.port p w) = .error e ∧ r = .badRequest e)) := by
  unfold fetch at h
  split at h
  · simp at h
  · rename_i a p w rest hr
    refine ⟨a, p, w, rest, hr, ?_⟩
    split at h
    · rename_i ha
      unfold fetchDecoded at h
      split at h
      · simp at h
      · exact .inr ⟨ha.symm, _, ‹_›, by simpa using h.symm⟩
    · rename_i ha
      exact .inl ⟨Ne.symm ha, by simpa using h.symm⟩
  · split at h
    · simp at h
    · have hd : ∃ i, decode s.params (.wire s.window) = .ok i := decodeWire_ok (by simp [State.window])
      obtain ⟨i, hi⟩ := hd
      simp [fetchDecoded, hi] at h

/-! ### The CONSUMER's conditions are kept by the interrupt -/

@[simp] theorem State.signal_consumerConditions (s : State) (c : Condition) :
    (s.signal c).consumerConditions = if c.fromInterrupt then s.consumerConditions else c :: s.consumerConditions := by
  simp only [State.consumerConditions, State.signal_conditions, List.filter_cons]
  cases c.fromInterrupt <;> simp

@[simp] theorem enqueue_consumerConditions (b : Byte) (s : State) :
    (enqueue b s).1.consumerConditions = s.consumerConditions := by
  unfold enqueue
  split
  · simp [Condition.fromInterrupt]
  · rfl

@[simp] theorem deliver_consumerConditions (bs : List Byte) (s : State) :
    (deliver bs s).consumerConditions = s.consumerConditions := by
  induction bs generalizing s with
  | nil => rfl
  | cons b bs ih => simp [deliver, ih]

@[simp] theorem State.interrupt_consumerConditions (s : State) :
    s.interrupt.consumerConditions = s.consumerConditions := by
  unfold State.interrupt
  split
  · rfl
  · exact deliver_consumerConditions _ _

/-! ### Everything an instruction can do -/

/-- A scan answers its pass, whatever it ended in (R130). -/
theorem exec_scan {s u : State} {r : Result} (h : scanPass s = (u, r)) : exec .scan s = .next { u with result := r } := by
  simp only [exec, execScan, h, finish]

/-- A tick whose scan did not raise (R190). -/
theorem exec_tick_next {s u : State} {r : Result} (h : scanPass s = (u, r)) (hr : r ≠ .fault) :
    exec .tick s = .next { u.ramp.emit with result := r } := by
  simp only [exec, execTick, h, actuate]
  cases r
  case fault => exact absurd rfl hr
  all_goals rfl

/-- A tick whose scan raised AdvanceUnderrun (R215). -/
theorem exec_tick_fault {s u : State} (h : scanPass s = (u, .fault)) :
    exec .tick s = .next { u with result := .fault } := by
  simp only [exec, execTick, h, actuate, finish]

/-- A tick below the guard, with no interrupt (R190 case 1). -/
theorem exec_tick_wait {s : State} (hq : s.arrivals = []) (h : s.occupancy < s.params.minMsgSize) :
    exec .tick s = .next { s.ramp.emit with result := .outcome .wait } := by
  have hw := scanPass_wait (s := s) (by rw [State.interrupt_of_quiet hq]; exact h)
  rw [State.interrupt_of_quiet hq] at hw
  exact exec_tick_next hw (by simp)

theorem State.ramp_current_get (s : State) {i : Nat} (h : i ∈ s.params.channelNumbers) :
    s.ramp.current.get i = rampValue s.params (s.current.get i) (s.target.get i) := Drive.get_rampDrive h

/-- What exec can answer, by kinds of operation. -/
inductive Does (i : Instr) (s t : State) : Prop where
  | pushes (b : Byte) (hi : i = .push b) (ht : t = { (enqueue b s).1 with result := (enqueue b s).2 })
  | reads (u : State) (r : Result) (hu : Interprets s u) (ht : t = { u with result := r }) (hr : r ≠ .fault)
      (hi : i = .available ∨ (∃ k, i = .peek k) ∨ (∃ len cmd, i = .cmdReserved len cmd)) (hg : u.target = s.target)
  | dispatches (u : State) (hu : Interprets s u) (ht : t = { u with result := .none })
      (hi : i = .dispatch ∨ ∃ len v1 v2 vs, i = .setThrottle len v1 v2 vs)
  | advances (p : State × Result) (hp : Scans s p) (ht : t = { p.1 with result := p.2 })
      (hi : (∃ n, i = .advance n) ∨ ∃ b0 b1, i = .resyncByte b0 b1) (hg : p.1.target = s.target)
  | scans (hi : i = .scan) (hp : Scans s (scanPass s)) (ht : t = { (scanPass s).1 with result := (scanPass s).2 })
  | ramps (hi : i = .rampStep) (ht : t = { s.ramp with result := .none })
  | emits (hi : i = .sinkWrite) (ht : t = { s.emit with result := .none })
  | ticks (hi : i = .tick) (hp : Scans s (scanPass s)) (hr : (scanPass s).2 ≠ .fault)
      (ht : t = { (scanPass s).1.ramp.emit with result := (scanPass s).2 })
  | ticksFault (hi : i = .tick) (hp : Scans s (scanPass s)) (hr : (scanPass s).2 = .fault)
      (ht : t = { (scanPass s).1 with result := .fault })

/-- The inversion of exec: what an instruction did when it answered `t`. -/
theorem exec_does {i : Instr} {s t : State} (h : exec i s = .next t) : Does i s t := by
  cases i with
  | push b => injection h with h; exact .pushes b rfl h.symm
  | available =>
    injection h with h
    exact .reads _ _ (interprets_interrupt s) h.symm (by simp) (by simp) (by simp)
  | peek k =>
    injection h with h
    exact .reads _ _ (interprets_interrupt s) h.symm (by simp) (by simp) (by simp)
  | cmdReserved len cmd =>
    injection h with h
    exact .reads _ _ (interprets_signal s _) h.symm (by simp) (by simp) (by simp)
  | dispatch => injection h with h; exact .dispatches _ (interprets_interpretFrame s) h.symm (by simp)
  | setThrottle len v1 v2 vs =>
    injection h with h
    exact .dispatches _ (interprets_applyTargets 1 (v1 :: v2 :: vs) s) h.symm (by simp)
  | advance n =>
    injection h with h
    refine .advances _ (scans_consume (Interprets.refl s) n .none (by simp)) h.symm (by simp) ?_
    unfold consume
    split <;> simp
  | resyncByte b0 b1 =>
    injection h with h
    refine .advances _ (scans_resync (Interprets.refl s) b0 b1) h.symm (by simp) ?_
    simp only [resync, consume]
    split <;> simp [advanceOr]
  | scan => injection h with h; exact .scans rfl (scans_scanPass s) h.symm
  | rampStep => injection h with h; exact .ramps rfl h.symm
  | sinkWrite => injection h with h; exact .emits rfl h.symm
  | tick =>
    by_cases hf : (scanPass s).2 = .fault
    · rw [exec_tick_fault (Prod.ext rfl hf)] at h
      injection h with h
      exact .ticksFault rfl (scans_scanPass s) hf h.symm
    · rw [exec_tick_next (u := (scanPass s).1) rfl hf] at h
      injection h with h
      exact .ticks rfl (scans_scanPass s) hf h.symm

end Sys2Proof.Machine
end

