-- ==== Sys2Proof/Laws/PerInstr.lean ====
section
/-! SUPPORT. Per instruction: the shape of its encoding (R93, R81). -/

/-- A request word has its strobe bit just above its port's operand bits and nothing above; a frame or pair of bytes has the
length of its outcome. -/
def Sys2Proof.Laws.EncodingShape.Statement (i : Sys2Proof.Instr) : Prop :=
  ∀ p : Sys2Proof.Params, i.wf p = true →
    match Sys2Proof.encode p i with
    | .port q w => 2 ^ q.operandBits ≤ w.toNat ∧ w.toNat < 2 ^ (q.operandBits + 1)
    | .wire bytes => bytes.length = 2 ∨ bytes.length = 4 ∨ bytes.length = p.frameBytes

namespace Sys2Proof.Laws.EncodingShape

theorem push (b : Byte) : Statement (.push b) := by
  intro p _
  have := b.isLt
  have h := strobed_byte b
  simp only [encode, Port.operandBits]
  omega

theorem available : Statement .available := fun _ _ => ⟨by decide, by decide⟩

theorem peek (k : Byte) : Statement (.peek k) := by
  intro p _
  have := k.isLt
  have h := strobed_byte k
  simp only [encode, Port.operandBits]
  omega

theorem advance (n : Count) : Statement (.advance n) := by
  intro p _
  have := n.isLt
  have h := strobed_count n
  simp only [encode, Port.operandBits]
  omega

theorem scan : Statement .scan := fun _ _ => ⟨by decide, by decide⟩

theorem dispatch : Statement .dispatch := fun _ _ => ⟨by decide, by decide⟩

theorem rampStep : Statement .rampStep := fun _ _ => ⟨by decide, by decide⟩

theorem sinkWrite : Statement .sinkWrite := fun _ _ => ⟨by decide, by decide⟩

theorem tick : Statement .tick := fun _ _ => ⟨by decide, by decide⟩

theorem setThrottle (len : Byte) (v1 v2 : Immediate) (vs : List Immediate) : Statement (.setThrottle len v1 v2 vs) := by
  intro p h
  simp only [Instr.wf, beq_iff_eq] at h
  refine .inr (.inr ?_)
  simp only [List.length_cons, valueBytes_length, Params.frameBytes]
  omega

theorem cmdReserved (len cmd : Byte) : Statement (.cmdReserved len cmd) := fun _ _ => .inr (.inl rfl)

theorem resyncByte (b0 b1 : Byte) : Statement (.resyncByte b0 b1) := fun _ _ => .inl rfl

end Sys2Proof.Laws.EncodingShape
end

