-- ==== Sys2Proof/Laws/Run.lean ====
section
/-! SUPPORT. What the agents' steps and the runs without end can do (R190, R192, R196). -/

namespace Sys2Proof.Machine

/-- CONSUMER's step is a tick (R190). -/
theorem step_turn_tick {s : State} (h : s.faultUnderrun = false) (arrivals : List (List Byte)) :
    step (s.turn (.tick arrivals)) = exec .tick { s with requests := [], arrivals := arrivals } := by
  simp [step, State.turn, fetch, h]

/-- PRODUCER's step is a `PUSH` of its byte (R192). -/
theorem step_turn_push {s : State} (h : s.faultUnderrun = false) (b : Byte) :
    step (s.turn (.push b)) = exec (.push b) { s with requests := [] } := by
  have hb := b.isLt
  have hd : decode s.params (encode s.params (.push b)) = .ok (.push b) := by
    rw [encode, decode, decodePort_strobed (by rw [strobed_byte]; simp only [Port.operandBits]; omega)]
    simp only [Port.instr]
    congr 2
    apply BitVec.eq_of_toNat_eq
    rw [BitVec.toNat_setWidth, strobed_byte]
    omega
  obtain ⟨w, hw⟩ : ∃ w, encode s.params (.push b) = .port .push w := ⟨_, rfl⟩
  rw [hw] at hd
  simp only [State.turn, hw, step, State.place, fetch, fetchDecoded, portOwner, h, hd, if_true, Bool.false_eq_true, if_false]

/-- No state of a run has taken the fault: nothing follows one that has (R215). -/
theorem Schedule.Runs.faultFree {σ : Schedule} {r : Nat → State} (h : σ.Runs r) (n : Nat) :
    (r n).faultUnderrun = false := by
  have hn := (step_next (h n)).1
  cases hs : σ n <;> rw [hs] at hn <;> exact hn

end Sys2Proof.Machine
end

