-- ==== Sys2Proof/Tests/Slice0.lean ====
section
/-! SUPPORT. Tests: encodings written out from the spec, ill-formed terms refused, one step per operation with the expected
result taken from 95_test_vectors.md, and a witness for the hypotheses of every statement. -/

namespace Sys2Proof.Machine

/-- One field of the next state an operation answers. -/
def answer {α : Type} (o : Host.Outcome State Fault Refusal) (f : State → α) : Option α :=
  match o with
  | .next t => some (f t)
  | .fault _ => none
  | .refused _ => none

/-- From reset, the bytes pushed one after the other. -/
def loaded (bytes : List Byte) : State := deliver bytes State.reset

/-- Other parameters that R7 admits: every one differs from its default. -/
def otherParams : Params where
  capacity := 16
  indexWidth := 4
  counterWidth := 10
  sentinel := 0xAA
  minMsgSize := 8
  cmdSetThrottle := 0x02
  channels := 2
  valueWidth := 12
  throttleLo := 100
  throttleHi := 2000
  delta := 50
  neutral := 150
  capacity_eq := by decide
  counterWidth_gt := by decide
  minMsgSize_range := by decide
  throttle_range := by decide
  delta_pos := by decide
  channels_range := by decide

/-- Reset storage and throttle state with the counters and storage given. -/
def ring (head tail : Nat) (mem : Memory) : State := { State.reset with head := head, tail := tail, mem := mem }

/-- The first six bytes of SET_THROTTLE 5000, 5000, 5000 (95_test_vectors.md part 4). -/
def sixBytes : State := loaded [0xFF, 0xFF, 0x07, 0x01, 0x13, 0x88]

/-- SET_THROTTLE 5000, 3500, 9999 (R96). -/
def oneFrame : State := loaded [0xFF, 0xFF, 0x07, 0x01, 0x13, 0x88, 0x0D, 0xAC, 0x27, 0x0F]

/-! ### Well-formedness: an ill-formed term for each check -/

theorem test_wf_refuses_reserved_one : (Instr.cmdReserved 7 1).wf .default = false := by decide
theorem test_wf_refuses_resync_pair : (Instr.resyncByte 0xFF 0xFF).wf .default = false := by decide
theorem test_wf_refuses_wrong_number_of_values :
    (Instr.setThrottle 7 5000 3500 []).wf .default = false ∧ (Instr.setThrottle 7 5000 3500 [1, 2]).wf .default = false := by decide
theorem test_wf_accepts_neighbours :
    (Instr.cmdReserved 7 0).wf .default = true ∧ (Instr.resyncByte 0xFF 0xFE).wf .default = true ∧
      (Instr.setThrottle 7 5000 3500 [9999]).wf .default = true := by decide

/-! ### Decoding: the words of R93 and the frames of R84, R96, T7, SC4, one per row -/

theorem test_decode_push : decode .default (.port .push 0b1_11111111) = .ok (.push 0xFF) := by decide
theorem test_decode_available : decode .default (.port .available 0b1) = .ok .available := by decide
theorem test_decode_peek : decode .default (.port .peek 0b1_10000000) = .ok (.peek 128) := by decide
theorem test_decode_advance : decode .default (.port .advance 0b1_100000001) = .ok (.advance 257) := by decide
theorem test_decode_scan : decode .default (.port .scan 0b1) = .ok .scan := by decide
theorem test_decode_dispatch : decode .default (.port .dispatch 0b1) = .ok .dispatch := by decide
theorem test_decode_ramp_step : decode .default (.port .rampStep 0b1) = .ok .rampStep := by decide
theorem test_decode_sink_write : decode .default (.port .sinkWrite 0b1) = .ok .sinkWrite := by decide
theorem test_decode_tick : decode .default (.port .tick 0b1) = .ok .tick := by decide
theorem test_decode_set_throttle :
    decode .default (.wire [0xFF, 0xFF, 0x07, 0x01, 0x13, 0x88, 0x0D, 0xAC, 0x27, 0x0F]) =
      .ok (.setThrottle 7 5000 3500 [9999]) := by
  decide
theorem test_decode_cmd_reserved :
    decode .default (.wire [0xFF, 0xFF, 0x07, 0x00, 0x13, 0x88]) = .ok (.cmdReserved 7 0) := by decide
theorem test_decode_resync_byte : decode .default (.wire [0x12, 0xFF, 0x34]) = .ok (.resyncByte 0x12 0xFF) := by decide
/-- R7, R84, R88 at other parameters: another sentinel, another command, two channels. -/
theorem test_decode_other_parameters :
    decode otherParams (.wire [0xAA, 0xAA, 0x05, 0x02, 0x03, 0xE8, 0xFF, 0xFF]) = .ok (.setThrottle 5 1000 65535 []) ∧
    decode otherParams (.wire [0xAA, 0xAA, 0x05, 0x01]) = .ok (.cmdReserved 5 1) ∧
    decode otherParams (.wire [0xFF, 0xFF, 0x05, 0x02]) = .ok (.resyncByte 0xFF 0xFF) := by decide
theorem test_decode_rejects :
    decode .default (.port .push 0b0_10101011) = .error (.noStrobe .push) ∧
    decode .default (.port .peek 0b11_00000000) = .error (.strayBits .peek) ∧
    decode .default (.wire [0xFF, 0xFF, 0x07]) = .error .truncated := by decide

/-- The table's numbering (R83): header byte 0 in bits 31..24; the values' words follow above the header. -/
theorem test_table_words :
    decodeTableWord 16 0x1AB = some (.push 0xAB) ∧ decodeTableWord 16 0x301 = some (.advance 257) ∧
    decodeTableWord 8 1 = some .tick ∧ decodeTableWord 32 0xFFFF0701 = some (.setThrottle 7 0 0 [0]) ∧
    decodeTableWord 80 0x270F0DAC1388FFFF0701 = some (.setThrottle 7 5000 3500 [9999]) ∧
    decodeTableWord 32 0xFFFF0702 = some (.cmdReserved 7 2) ∧ decodeTableWord 16 0x1234 = some (.resyncByte 0x12 0x34) := by
  decide

/-- R95, R96: the example of SET_THROTTLE and a FRAME, a FRAMEL and a RAW item of 95_test_vectors.md T7, SC7. -/
theorem test_stream_notation :
    streamBytes .default [.setThrottle [5000, 3500, 9999]] = [0xFF, 0xFF, 0x07, 0x01, 0x13, 0x88, 0x0D, 0xAC, 0x27, 0x0F] ∧
    streamBytes .default [.raw [0x12], .frame 2 [0x17, 0x70], .frameL 0 1 [0x0B]] =
      [0x12, 0xFF, 0xFF, 0x03, 0x02, 0x17, 0x70, 0xFF, 0xFF, 0x00, 0x01, 0x0B] := by decide

/-! ### One step per operation -/

/-- RB5. -/
theorem test_push_first :
    answer (exec (.push 0xAB) State.reset) (fun t => (t.mem, t.head, t.tail, t.result)) = some ([(0, 0xAB)], 1, 0, .ok) := by
  decide
/-- RB12, second push: `head` wraps from 511 to 0, slot 255. -/
theorem test_push_wraps :
    answer (exec (.push 0x11) (ring 511 505 [])) (fun t => (t.mem, t.head, t.result)) = some ([(255, 0x11)], 0, .ok) := by
  decide
/-- RB10: a full buffer counts 256. -/
theorem test_available_full : answer (exec .available (ring 256 0 [])) (·.result) = some (.count 256) := by decide
/-- RB8: a consumed byte still in storage. -/
theorem test_peek_stale : answer (exec (.peek 255) (ring 1 1 [(0, 0xAB)])) (·.result) = some (.byte 0xAB) := by decide
/-- RB14: the counter wraps. -/
theorem test_advance_wraps : answer (exec (.advance 8) (ring 1 505 [])) (fun t => (t.tail, t.result)) = some (1, .none) := by
  decide
/-- RB19. -/
theorem test_advance_underrun :
    answer (exec (.advance 257) (ring 256 0 [])) (fun t => (t.faultUnderrun, t.result)) = some (true, .fault) := by decide
/-- SC7, tick 1: `len` = 0 is dispatched all the same and two bytes are consumed. -/
theorem test_scan_len_zero :
    answer (exec .scan (loaded [0xFF, 0xFF, 0x00, 0x01, 0x0B, 0xB8, 0x0B, 0xB8, 0x0B, 0xB8]))
      (fun t => (t.target, t.tail, t.result)) = some (⟨[3000, 3000, 3000]⟩, 2, .outcome .dispatched) := by
  decide +kernel
/-- SC9: `len` = 255 in a full buffer faults. -/
theorem test_scan_len_max :
    answer (exec .scan (ring 256 0 [(0, 0xFF), (1, 0xFF), (2, 0xFF), (3, 0x02)]))
      (fun t => (t.target, t.faultUnderrun, scannerLabel t.result)) = some (⟨[4500, 4500, 4500]⟩, true, .haveSync) := by decide
/-- DP3: 0xFFFF is 65535 and clamps to 6000. -/
theorem test_dispatch_unsigned :
    answer (exec .dispatch (loaded [0xFF, 0xFF, 0x07, 0x01, 0x00, 0x00, 0xFF, 0xFF, 0x11, 0x94]))
      (fun t => (t.target, t.conditions, t.tail)) =
      some (⟨[3000, 6000, 4500]⟩, [.outOfRangeValue 2 65535, .outOfRangeValue 1 0], 0) := by decide
/-- DP8. -/
theorem test_dispatch_reserved :
    answer (exec .dispatch (loaded [0xFF, 0xFF, 0x07, 0xFF, 0x13, 0x88])) (fun t => (t.target, t.conditions)) =
      some (⟨[4500, 4500, 4500]⟩, [.unknownCommand 0xFF]) := by decide
/-- RP4, RP5, RP9: the comparison with 450 is strict. -/
theorem test_ramp_strict :
    answer (exec .rampStep { State.reset with target := ⟨[4950, 4951, 4049]⟩ }) (·.current) = some ⟨[4950, 4950, 4050]⟩ := by
  decide
/-- SK2: an event although nothing changed. -/
theorem test_sink_repeats :
    answer (exec .sinkWrite { State.reset with sink := [⟨[4500, 4500, 4500]⟩] }) (·.sink) =
      some [⟨[4500, 4500, 4500]⟩, ⟨[4500, 4500, 4500]⟩] := by decide
/-- P1, tick 1 (the example of R190). -/
theorem test_tick_same_tick_target :
    answer (exec .tick oneFrame) (fun t => (t.target, t.sink, t.tail, t.result)) =
      some (⟨[5000, 3500, 6000]⟩, [⟨[4950, 4050, 4950]⟩], 9, .outcome .dispatched) := by
  decide +kernel
/-- IL1 to IL4: the four places of the pushes inside the tick, and the four results. The entries of `arrivals` stand before
the snapshot, PEEK(0), PEEK(1), PEEK(3), PEEK(4) to PEEK(9), PEEK(2), the test and the write of ADVANCE. -/
theorem test_tick_interleavings :
    answer (exec .tick sixBytes) (fun t => (t.target, t.result, t.sink)) = some (⟨[5000, 3000, 3000]⟩, .fault, []) ∧
    answer (exec .tick { sixBytes with arrivals := [[], [], [], [], [], [], [0x13, 0x88, 0x13, 0x88]] })
      (fun t => (t.target, t.result, t.sink)) = some (⟨[5000, 5000, 5000]⟩, .outcome .dispatched, [⟨[4950, 4950, 4950]⟩]) ∧
    answer (exec .tick { sixBytes with arrivals := [[], [], [], [], [], [], [0x13, 0x88], [], [], [], [0x13, 0x88]] })
      (fun t => (t.target, t.result, t.sink)) = some (⟨[5000, 5000, 3000]⟩, .outcome .dispatched, [⟨[4950, 4950, 4050]⟩]) ∧
    answer (exec .tick { sixBytes with arrivals := [[], [], [], [], [], [], [], [0x13, 0x88], [0x13, 0x88]] })
      (fun t => (t.target, t.result, t.sink)) = some (⟨[5000, 3000, 5000]⟩, .outcome .dispatched, [⟨[4950, 4050, 4950]⟩]) := by
  decide
/-- R26, R131, R132, R151, R170, R171 at other parameters: 512 is a value of a ten-bit counter and 16 bytes fill the buffer;
seven bytes are below a guard of eight; a frame of two channels, the second value saturated, is dispatched and ramped by 50. -/
theorem test_other_parameters :
    answer (exec (.push 0x11) { State.startup otherParams with head := 511, tail := 505 }) (fun t => (t.mem, t.head)) =
      some ([(15, 0x11)], 512) ∧
    answer (exec (.push 0x11) { State.startup otherParams with head := 16 }) (·.result) = some .overflow ∧
    answer (exec .tick { State.startup otherParams with head := 7 }) (fun t => (t.result, t.sink)) =
      some (.outcome .wait, [⟨[150, 150]⟩]) ∧
    answer (exec .tick (deliver [0xAA, 0xAA, 0x05, 0x02, 0x03, 0xE8, 0xFF, 0xFF] (State.startup otherParams)))
      (fun t => (t.target, t.sink, t.tail, t.conditions)) =
      some (⟨[1000, 2000]⟩, [⟨[200, 200]⟩], 7, [.outOfRangeValue 2 65535]) := by decide
/-- DP1. -/
theorem test_set_throttle_bounds :
    answer (exec (.setThrottle 7 2999 3000 [3001]) State.reset) (fun t => (t.target, t.conditions)) =
      some (⟨[3000, 3000, 3001]⟩, [.outOfRangeValue 1 2999]) := by decide
/-- T7. -/
theorem test_cmd_reserved :
    answer (exec (.cmdReserved 7 2) State.reset) (fun t => (t.target, t.tail, t.conditions)) =
      some (⟨[4500, 4500, 4500]⟩, 0, [.unknownCommand 2]) := by decide
/-- SC4, the decode outcome alone. -/
theorem test_resync_byte :
    answer (exec (.resyncByte 0xFF 0x00) (loaded [0xFF, 0x00, 0xFF, 0xFF, 0x07, 0x01])) (fun t => (t.tail, t.result)) =
      some (1, .outcome .resync) := by decide
/-- SK1: the first step from reset with nothing asked for is a tick that waits. -/
theorem test_step_idle_ticks :
    answer (step State.reset) (fun t => (t.result, t.sink)) = some (.outcome .wait, [⟨[4500, 4500, 4500]⟩]) := by decide
/-- Words of the table run as the first step after reset. -/
theorem test_step_runs_table_words :
    answer (step (State.reset.withFetchWord 16 0x1AB)) (fun t => (t.mem, t.requests)) = some ([(0, 0xAB)], []) ∧
    answer (step (State.reset.withFetchWord 32 0xFFFF0701)) (·.target) = some ⟨[3000, 3000, 3000]⟩ ∧
    answer (step (State.reset.withFetchWord 16 0x1234)) (·.tail) = some 1 := by decide
/-- The trace notation (R95) on SC2: five bytes, then a tick that waits. -/
theorem test_trace :
    (runTrace [.push 0xFF .ok, .push 0xFF .ok, .push 0x07 .ok, .push 0x01 .ok, .push 0x13 .ok, .tick (.outcome .wait)]
      State.reset).map (fun t => (t.head, t.tail)) = some (5, 0) := by decide

/-! ### Witnesses: states that meet the hypotheses of the statements, at the boundary values of their ranges -/

theorem witness_decode_accepts :
    decode .default (.port .peek 0b1_00000000) = .ok (.peek 0) ∧ decode .default (.port .available 1) = .ok .available ∧
      decode .default (.wire [0xFF, 0xFE]) = .ok (.resyncByte 0xFF 0xFE) := by decide
theorem witness_command_identifier :
    Params.default.AsGiven ∧ 6 ≤ ([0x0B, 0xB8, 0x0B, 0xB8, 0x0B, 0xB8] : List Byte).length ∧ (0x01 : Byte) = 0x01 ∧ (0x02 : Byte) ≠ 0x01 := by decide
theorem witness_step_idle : State.reset.faultUnderrun = false ∧ State.reset.requests = [] := by decide
theorem witness_step_call :
    (State.reset.place (encode .default .scan)).faultUnderrun = false ∧
      (State.reset.place (encode .default .scan)).requests = [.call (portOwner .scan) .scan 1] ∧
      decode .default (.port .scan 1) = .ok .scan := by decide
theorem witness_step_frame :
    ({ sixBytes with requests := [.frame] } : State).faultUnderrun = false ∧
      sixBytes.params.minMsgSize ≤ sixBytes.occupancy ∧
      decode .default (.wire ((List.range Params.default.frameBytes).map fun k => sixBytes.mem.read ((sixBytes.tail + k) % sixBytes.params.capacity))) =
        .ok (.setThrottle 7 5000 0 [0]) := by decide
theorem witness_step_faulted : ({ State.reset with faultUnderrun := true } : State).faultUnderrun = true := by decide
/-- A foreign request and a malformed one, each pending and each refused as the statement says. -/
theorem witness_step_refusals :
    let s : State := { State.reset with requests := [.call .consumer .push 0x1AB] }
    let t : State := { State.reset with requests := [.call .producer .push 0] }
    s.faultUnderrun = false ∧ Agent.consumer ≠ portOwner .push ∧ step s = .refused (.ownershipBroken .consumer .push) ∧
      t.faultUnderrun = false ∧ Agent.producer = portOwner .push ∧ decode .default (.port .push 0) = .error (.noStrobe .push) ∧
      step t = .refused (.badRequest (.noStrobe .push)) :=
  ⟨rfl, by decide, rfl, rfl, rfl, by decide, rfl⟩
theorem witness_step_fault : step { State.reset with faultUnderrun := true } = .fault .executionFaulted := rfl
theorem witness_step_frame_waits :
    ({ State.reset with requests := [.frame] } : State).requests = [.frame] ∧
      State.reset.occupancy < State.reset.params.minMsgSize := by decide
theorem witness_window :
    ([0x13, 0x88, 0x0D, 0xAC, 0x27, 0x0F] : List Byte).length = 2 * Params.default.channels ∧
      1 ∈ Params.default.channelNumbers ∧ 3 ∈ Params.default.channelNumbers := by decide
theorem witness_placed : State.reset.faultUnderrun = false ∧ encode .default (.push 0xAB) = .port .push 0x1AB := by decide
theorem witness_push_room : (ring 255 0 []).occupancy ≠ 256 := by decide
theorem witness_push_full : (ring 256 0 []).occupancy = 256 := by decide
theorem witness_available : (ring 256 0 []).occupancy ≤ 256 ∧ (ring 256 0 []).arrivals = [] := by decide
theorem witness_peek :
    sixBytes.occupancy ≤ 256 ∧ (5 : Byte).toNat < sixBytes.occupancy ∧ sixBytes.arrivals = [] := by decide
theorem witness_advance :
    (256 : Count).toNat ≤ (ring 256 0 []).interrupt.occupancy ∧ (ring 256 0 []).arrivals = [] := by decide
theorem witness_advance_underrun :
    (ring 256 0 []).interrupt.occupancy < (257 : Count).toNat ∧ (ring 256 0 []).arrivals = [] := by decide
theorem witness_queue_room :
    sixBytes.occupancy ≤ 256 ∧ sixBytes.arrivals = [] ∧ sixBytes.unread.length < 256 ∧
      (5 : Byte).toNat < sixBytes.unread.length ∧ (6 : Count).toNat ≤ sixBytes.unread.length := by decide
theorem witness_queue_full : (ring 256 0 []).arrivals = [] ∧ (ring 256 0 []).unread.length = 256 := by
  refine ⟨rfl, ?_⟩
  simp [State.unread]
  decide
theorem witness_pushes_fit :
    (ring 254 0 []).occupancy + ([0xAB, 0xCD] : List Byte).length ≤ 256 ∧
      (ring 254 0 []).head < (ring 254 0 []).params.counterRange := by decide
/-- A byte arrives at the `PEEK` between, and another is pushed. -/
theorem witness_published :
    let s : State := { sixBytes with arrivals := [[0x13], [0x88]] }
    s.occupancy ≤ 256 ∧ answer (exec .available s) (·.result) = some (.count 7) ∧ (6 : Byte).toNat < 7 ∧
      ∀ i ∈ [Instr.peek 0, .push 0x13, .available], i = .available ∨ (∃ j, i = .peek j) ∨ ∃ b, i = .push b :=
  ⟨by decide, by decide, by decide, by simp⟩
theorem witness_unbounded_counts :
    1000 ≤ 1256 ∧ 1256 ≤ 1000 + 256 ∧ (ring 232 488 []).head = 1256 % State.reset.params.counterRange ∧
      (ring 232 488 []).tail = 1000 % State.reset.params.counterRange ∧ (ring 232 488 []).arrivals = [] ∧
      (256 : Count).toNat ≤ 1256 - 1000 := by decide
/-- 1256 bytes pushed and 1000 consumed, in counters of 9 and of 10 bits. -/
theorem witness_width :
    let p : Params := { Params.default with counterWidth := 10, counterWidth_gt := by decide }
    (ring 232 488 []).SameButWidth { ring 232 1000 [] with params := p } :=
  ⟨1256, 1000, by decide, by decide, rfl, rfl, rfl, rfl, ⟨10, by decide, rfl⟩, rfl⟩
theorem witness_scan_waits : (ring 5 0 []).interrupt.occupancy < (ring 5 0 []).params.minMsgSize ∧ (ring 5 0 []).arrivals = [] := by decide
theorem witness_scan_resync :
    (ring 6 0 [(0, 0xFF)]).occupancy ≤ 256 ∧
      (ring 6 0 [(0, 0xFF)]).params.minMsgSize ≤ (ring 6 0 [(0, 0xFF)]).interrupt.occupancy ∧
      ¬((ring 6 0 [(0, 0xFF)]).interrupt.byteAt 0 = 0xFF ∧ (ring 6 0 [(0, 0xFF)]).interrupt.byteAt 1 = 0xFF) := by decide
theorem witness_scan_dispatch :
    oneFrame.occupancy ≤ 256 ∧ oneFrame.interrupt.locates = true ∧
      2 + (oneFrame.interrupt.byteAt 2).toNat ≤ oneFrame.interrupt.occupancy ∧
      (oneFrame.interrupt.byteAt 3 = 0x01 → 10 ≤ oneFrame.interrupt.occupancy) := by decide
/-- SC8: `len` = 254 in a full buffer. -/
theorem witness_scan_dispatch_longest :
    let s := ring 256 0 [(0, 0xFF), (1, 0xFF), (2, 0xFE), (3, 0x02)]
    s.occupancy ≤ 256 ∧ s.interrupt.locates = true ∧ 2 + (s.interrupt.byteAt 2).toNat ≤ s.interrupt.occupancy ∧
      (s.interrupt.byteAt 3 = 0x01 → 10 ≤ s.interrupt.occupancy) := by decide
theorem witness_hunting :
    let s := loaded [1, 2, 3, 4, 5, 6, 7, 8]
    s.arrivals = [] ∧ s.occupancy ≤ 256 ∧ 3 + s.params.minMsgSize ≤ s.occupancy + 1 ∧ 0 < 3 ∧
      ∀ k < 3, ¬(s.byteAt k = 0xFF ∧ s.byteAt (k + 1) = 0xFF) := by decide
theorem witness_throttle_frame :
    oneFrame.params.AsGiven ∧ oneFrame.occupancy ≤ 256 ∧ oneFrame.params.minMsgSize ≤ oneFrame.interrupt.occupancy ∧
      oneFrame.interrupt.unread.take 10 = [0xFF, 0xFF, 0x07, 0x01, 0x13, 0x88, 0x0D, 0xAC, 0x27, 0x0F] := by decide
/-- P6b: nine of the ten bytes, and nothing arrives. -/
theorem witness_incomplete_frame :
    let s := loaded [0xFF, 0xFF, 0x07, 0x01, 0x13, 0x88, 0x13, 0x88, 0x13]
    s.occupancy ≤ 256 ∧ s.locates = true ∧ s.arrivals = [] ∧
      2 + (s.interrupt.byteAt 2).toNat ≤ (State.interrupt^[s.advanceAccess] s).occupancy := by decide +kernel
/-- IL3: two bytes arrive before PEEK(6) and two before the read of `len`; a reserved frame whose data arrives in time. -/
theorem witness_racing_frame :
    let s := { sixBytes with arrivals := [[], [], [], [], [], [], [0x13, 0x88], [], [], [], [0x13, 0x88]] }
    let r := { loaded [0xFF, 0xFF, 0x05, 0x02, 0x00, 0x00] with arrivals := [[], [], [], [], [], [0x00]] }
    s.occupancy ≤ 256 ∧ s.interrupt.locates = true ∧ s.interrupt.occupancy < 10 ∧
      2 + (s.interrupt.byteAt 2).toNat ≤ (State.interrupt^[s.advanceAccess] s).occupancy ∧
    r.occupancy ≤ 256 ∧ r.interrupt.locates = true ∧ r.interrupt.byteAt 3 ≠ 0x01 ∧
      2 + (r.interrupt.byteAt 2).toNat ≤ (State.interrupt^[r.advanceAccess] r).occupancy := by decide +kernel
/-- P6a, with one of the four bytes arriving in time and three too late; and a reserved frame one byte short. -/
theorem witness_past_data :
    let s := { sixBytes with arrivals := [[], [], [], [], [], [0x13], [], [], [], [], [], [], [0x88, 0x13, 0x88]] }
    let r := loaded [0xFF, 0xFF, 0x05, 0x02, 0x00, 0x00]
    s.occupancy ≤ 256 ∧ s.interrupt.locates = true ∧
      (State.interrupt^[s.advanceAccess] s).occupancy < 2 + (s.interrupt.byteAt 2).toNat ∧
    r.occupancy ≤ 256 ∧ r.interrupt.locates = true ∧ r.interrupt.byteAt 3 ≠ 0x01 ∧ r.arrivals = [] ∧
      (State.interrupt^[r.advanceAccess] r).occupancy < 2 + (r.interrupt.byteAt 2).toNat := by decide +kernel
theorem witness_residual_sentinel :
    let s := ring 15 9 [(9, 0xFF), (10, 0xFF), (11, 0xFF), (12, 0x07), (13, 0x01), (14, 0x11)]
    s.params.capacity < 2 + s.params.sentinel.toNat ∧ s.occupancy ≤ 256 ∧ s.params.minMsgSize ≤ s.interrupt.occupancy ∧
      s.interrupt.byteAt 0 = 0xFF ∧ s.interrupt.byteAt 1 = 0xFF ∧
      s.interrupt.byteAt 2 = 0xFF := by decide
/-- A frame of which the last four bytes arrive before the snapshot, and a byte in the middle of the pass. -/
theorem witness_interleaving :
    let s : State := { sixBytes with arrivals := [[0x13, 0x88, 0x13, 0x88], [], [0x55]] }
    s.occupancy ≤ 256 ∧ (s.interrupt.locates = true → 2 + (s.interrupt.byteAt 2).toNat ≤ s.interrupt.occupancy ∧
      (s.interrupt.byteAt 3 = 0x01 → 10 ≤ s.interrupt.occupancy)) ∧ s.interrupt.locates = true := by decide
/-- A residual byte, a frame, and six bytes of the next frame still to arrive with its last four behind them. -/
theorem witness_aligned :
    let s : State := { loaded [0x88, 0xFF, 0xFF, 0x03, 0x02, 0xAA, 0xBB] with
      arrivals := [[], [0xFF, 0xFF, 0x03, 0x02], [0xCC, 0xDD]] }
    s.faultUnderrun = false ∧ Aligned s.params s.stream ∧ s.stream.length ≤ 256 ∧
      (s.interrupt.locates = true → 3 + (s.interrupt.byteAt 2).toNat ≤ s.interrupt.occupancy) := by
  refine ⟨rfl, ⟨[0x88], [[0xFF, 0xFF, 0x03, 0x02, 0xAA, 0xBB], [0xFF, 0xFF, 0x03, 0x02, 0xCC, 0xDD]], by decide,
    .inr ⟨0x88, rfl, by decide⟩, ?_⟩, by decide, by decide⟩
  intro f hf
  simp only [List.mem_cons, List.not_mem_nil, or_false] at hf
  rcases hf with rfl | rfl
  · exact ⟨0x02, [0xAA, 0xBB], by decide, by decide, by decide⟩
  · exact ⟨0x02, [0xCC, 0xDD], by decide, by decide, by decide⟩
/-- A frame located whole at the snapshot. -/
theorem witness_aligned_located :
    let s := loaded [0xFF, 0xFF, 0x03, 0x02, 0xAA, 0xBB]
    Aligned s.params s.stream ∧ s.interrupt.locates = true ∧ 3 + (s.interrupt.byteAt 2).toNat ≤ s.interrupt.occupancy := by
  refine ⟨⟨[], [[0xFF, 0xFF, 0x03, 0x02, 0xAA, 0xBB]], by decide, .inl rfl, ?_⟩, by decide, by decide⟩
  intro f hf
  simp only [List.mem_cons, List.not_mem_nil, or_false] at hf
  subst hf
  exact ⟨0x02, [0xAA, 0xBB], by decide, by decide, by decide⟩
/-- One unread byte; one that arrives before the test of the advance; none. -/
theorem witness_resync_byte :
    1 ≤ (ring 1 0 []).interrupt.occupancy ∧ 1 ≤ ({ State.reset with arrivals := [[0x12]] } : State).interrupt.occupancy ∧
      State.reset.interrupt.occupancy = 0 ∧ State.reset.arrivals = [] := by decide
/-- As many values as channels: three at the defaults, two at other parameters. -/
theorem witness_set_throttle :
    (([2999, 3000, 6001] : List Immediate)).length = State.reset.params.channels ∧
      (([99, 2001] : List Immediate)).length = (State.startup otherParams).params.channels := by decide
theorem witness_dispatch_command : (State.interrupt^[1] sixBytes).byteAt 3 = 0x01 := by decide
theorem witness_dispatch_whole : 10 ≤ oneFrame.occupancy ∧ oneFrame.occupancy ≤ 256 ∧ oneFrame.byteAt 3 = 0x01 := by decide
theorem witness_dispatch_reserved : State.reset.interrupt.byteAt 3 ≠ 0x01 ∧ State.reset.arrivals = [] := by decide
theorem witness_clamp :
    Params.default.AsGiven ∧ 2999 < Params.default.throttleLo ∧ Params.default.throttleHi < 6001 ∧
      Params.default.throttleLo ≤ 3000 ∧ 6000 ≤ Params.default.throttleHi ∧ 2999 ≤ 6001 := by decide
/-- RP7: 901 units take three steps. -/
theorem witness_ramp_converges :
    1 ∈ State.reset.params.channelNumbers ∧ 3 ∈ State.reset.params.channelNumbers ∧ (State.reset.current.get 1) = 4500 ∧
      (({ State.reset with target := ⟨[5401, 3599, 4500]⟩ } : State).target.get 1) = 5401 ∧
      (4500 - 5401) + (5401 - 4500) ≤ 450 * 3 ∧ 4500 + 450 * 2 < 5401 ∧ 3599 + 450 * 2 < 4500 := by decide
theorem witness_four_ticks :
    let s : State := { State.reset with target := ⟨[6000, 6000, 6000]⟩ }
    s.params.AsGiven ∧ 1 ∈ s.params.channelNumbers ∧ s.current.get 1 = 4500 ∧ s.arrivals = [] ∧ s.occupancy < s.params.minMsgSize ∧ s.target.get 1 = 6000 := by decide
/-- The first of four ticks scans SET_THROTTLE 6000, 6000, 6000; the next three find its residual byte. -/
theorem witness_four_scanning_ticks :
    let s := loaded [0xFF, 0xFF, 0x07, 0x01, 0x17, 0x70, 0x17, 0x70, 0x17, 0x70]
    s.params.AsGiven ∧ 3 ∈ s.params.channelNumbers ∧ s.current.get 3 = 4500 ∧ ∃ t1 t2 t3 t4, exec .tick s = .next t1 ∧ exec .tick t1 = .next t2 ∧
      exec .tick t2 = .next t3 ∧ exec .tick t3 = .next t4 ∧ t1.result = .outcome .dispatched ∧
      ∀ t ∈ [t1, t2, t3, t4], t.result ≠ .fault ∧ t.target.get 3 = 6000 :=
  ⟨by decide, by decide, by decide, _, _, _, _, rfl, rfl, rfl, rfl, by decide, by decide⟩
theorem witness_waiting_tick :
    (ring 5 0 []).arrivals = [] ∧ (ring 5 0 []).occupancy < (ring 5 0 []).params.minMsgSize := by decide
/-- Both cases of the tick: a scan that raises and one that does not. -/
theorem witness_tick_cases :
    answer (exec .scan sixBytes) (·.result) = some .fault ∧ answer (exec .scan oneFrame) (·.result) ≠ some .fault := by decide
theorem witness_writers :
    (∃ t, exec (.push 0xAB) State.reset = .next t) ∧ (∃ t, exec .tick State.reset = .next t) ∧
      (∀ b, Instr.tick ≠ .push b) ∧ State.reset.arrivals = [] := ⟨⟨_, rfl⟩, ⟨_, rfl⟩, by simp, rfl⟩
theorem witness_throttle_writers :
    ∃ t, exec (.peek 0) State.reset = .next t ∧ Instr.peek 0 ≠ .scan ∧ Instr.peek 0 ≠ .dispatch ∧ Instr.peek 0 ≠ .tick ∧
      (∀ len v1 v2 v3, Instr.peek 0 ≠ .setThrottle len v1 v2 v3) ∧ Instr.peek 0 ≠ .rampStep ∧ Instr.peek 0 ≠ .sinkWrite :=
  ⟨_, rfl, by simp⟩
theorem witness_fault_bit :
    State.reset.faultUnderrun = false ∧ answer (exec (.advance 1) State.reset) (·.faultUnderrun) = some true ∧
      answer (exec .available { State.reset with faultUnderrun := true }) (·.faultUnderrun) = some true := by decide
theorem witness_unread_stand :
    sixBytes.occupancy ≤ 256 ∧ (∀ n, Instr.dispatch ≠ .advance n) ∧ Instr.dispatch ≠ .scan ∧ Instr.dispatch ≠ .tick ∧
      (∀ b0 b1, Instr.dispatch ≠ .resyncByte b0 b1) ∧ ∃ t, exec .dispatch sixBytes = .next t :=
  ⟨by decide, by simp, by simp, by simp, by simp, _, rfl⟩
theorem witness_configuration :
    (∃ t, exec .tick State.reset = .next t) ∧ ∃ t, step State.reset = .next t := ⟨⟨_, rfl⟩, _, rfl⟩
theorem witness_invariant : State.reset.Inv ∧ ∃ t, step State.reset = .next t := by
  refine ⟨?_, _, rfl⟩
  unfold State.Inv
  decide

/-! ### Runs without end -/

/-- The CONSUMER ticks at every moment and nothing arrives. -/
def silence : Schedule := fun _ => .tick []

/-- Its run from `s`: each state is the one before, ramped, with one event more. -/
def silentRun (s : State) : Nat → State
  | 0 => s
  | n + 1 => { ({ silentRun s n with requests := [], arrivals := [] } : State).ramp.emit with result := .outcome .wait }

/-- Reset with every target at 6000. -/
def fullAhead : State := { State.reset with target := ⟨[6000, 6000, 6000]⟩ }

theorem silence_fair : silence.Fair := fun n => ⟨n, le_rfl, rfl⟩

theorem silence_runs {s : State} (hs : s.occupancy = 0 ∧ s.params = .default ∧ s.faultUnderrun = false) :
    silence.Runs (silentRun s) := by
  intro n
  have h : (silentRun s n).occupancy = 0 ∧ (silentRun s n).params = .default ∧ (silentRun s n).faultUnderrun = false := by
    induction n with
    | zero => exact hs
    | succ n ih => exact ih
  exact (step_turn_tick h.2.2 []).trans (exec_tick_wait rfl (by
    show (silentRun s n).occupancy < (silentRun s n).params.minMsgSize
    rw [h.1, h.2.1]
    decide))

/-- R190, R192, R193: a byte pushed by the PRODUCER, then a tick with another byte arriving before its snapshot. -/
theorem test_turns :
    answer (step (State.reset.turn (.push 0xFF))) (fun t => (t.mem, t.head, t.result)) = some ([(0, 0xFF)], 1, .ok) ∧
    answer (step ((loaded [0xFF]).turn (.tick [[0xFE]]))) (fun t => (t.mem, t.result, t.sink)) =
      some ([(0, 0xFF), (1, 0xFE)], .outcome .wait, [⟨[4500, 4500, 4500]⟩]) := by decide
theorem witness_agents_enabled : State.reset.faultUnderrun = false := rfl
theorem witness_fair_run : silence.Fair ∧ silence.Runs (silentRun State.reset) ∧ silentRun State.reset 0 = State.startup .default :=
  ⟨silence_fair, silence_runs (by decide), rfl⟩
theorem witness_held_target :
    silence.Fair ∧ silence.Runs (silentRun fullAhead) ∧ 1 ∈ (silentRun fullAhead 0).params.channelNumbers ∧
      (silentRun fullAhead 0).current.get 1 ≠ 6000 ∧ ∀ m, 0 ≤ m → (silentRun fullAhead m).target.get 1 = 6000 := by
  refine ⟨silence_fair, silence_runs (by decide), by decide, by decide, fun m hm => ?_⟩
  clear hm
  induction m with
  | zero => rfl
  | succ m ih => exact ih

end Sys2Proof.Machine
end

section
/-! The configuration, and the state after start-up (R7, R36, R37). -/

namespace Sys2Proof.Machine

/-! ### The configuration is no operation's to write -/

/-- No operation writes the parameters of R7 (R36). -/
theorem exec_params {i : Instr} {s t : State} (h : exec i s = .next t) : t.params = s.params := by
  cases exec_does h with
  | pushes b _ ht => rw [ht]; exact enqueue_params b s
  | reads u r hu ht => rw [ht]; exact hu.params
  | dispatches u hu ht => rw [ht]; exact hu.params
  | advances p hp ht => rw [ht]; exact hp.params
  | scans _ hp ht => rw [ht]; exact hp.params
  | ramps _ ht => rw [ht]; exact s.ramp_params
  | emits _ ht => rw [ht]; exact s.emit_params
  | ticks _ hp _ ht => rw [ht]; exact hp.params
  | ticksFault _ hp _ ht => rw [ht]; exact hp.params

/-- No step does: it executes an instruction or holds a frame back, and its fetch takes a request only. -/
theorem step_params {s t : State} (h : step s = .next t) : t.params = s.params := by
  obtain ⟨-, ⟨i, u, hf, he⟩ | ⟨u, hf, rfl⟩⟩ := step_next h
  · obtain ⟨rs, rfl⟩ := fetch_instr hf
    exact Eq.trans (exec_params he) rfl
  · obtain ⟨rs, rfl⟩ := fetch_wait hf
    rfl

/-- Settles O51: by what `exec` and `step` can do, no answer's configuration differs. -/
theorem configurationIsFixed : Obligations.ConfigurationIsFixed :=
  ⟨fun _ _ _ => exec_params, fun _ _ => step_params⟩

/-! ### The state after start-up -/

/-- `head` and `tail` both start at 0 (D2), so nothing is unread. -/
@[simp] theorem State.startup_occupancy (p : Params) : (State.startup p).occupancy = 0 :=
  occ_eq_of_modEq p.counterRange_pos (Nat.ModEq.refl 0)

/-- NEUTRAL lies within the actuator's scale (R7, R30). -/
theorem inScale_neutral (p : Params) : inScale p p.neutral = true :=
  (inScale_iff p p.neutral).mpr ⟨p.throttle_range.1, p.throttle_range.2.1⟩

/-- A drive with every channel at one value of the scale is within it. -/
theorem Drive.inScale_replicate {p : Params} {v : Nat} (h : Machine.inScale p v = true) :
    Drive.inScale p ⟨List.replicate p.channels v⟩ = true := by
  refine (Drive.inScale_iff _ _).mpr ⟨List.length_replicate, fun w hw => ?_⟩
  rw [List.eq_of_mem_replicate hw]
  exact h

/-- The invariant of the block holds after start-up: its clauses on storage and on the sink are of empty lists, and the
constraints of R7 give the others. -/
theorem State.startup_inv (p : Params) : (State.startup p).Inv := by
  have hscale := Drive.inScale_replicate (inScale_neutral p)
  have hcounters : (State.startup p).countersFit = true := by
    simp [State.countersFit, State.startup, p.counterRange_pos]
  have hbound : (State.startup p).ringBound = true := by simp [State.ringBound]
  exact ⟨⟨List.Pairwise.nil, fun _ h => absurd h List.not_mem_nil⟩, hcounters, fun _ => hbound, hscale, hscale,
    fun _ h => absurd h List.not_mem_nil⟩

/-- Settles O7: the fields of the start-up state at every parameter value, and the numbers of R7's defaults. -/
theorem resetIsStartupState : Obligations.ResetIsStartupState :=
  ⟨fun p => ⟨fun _ => rfl, rfl, rfl, State.startup_occupancy p, rfl, rfl, rfl, rfl⟩, rfl, rfl, rfl, by decide, rfl, rfl⟩

/-- Settles O50: `State.reset` is the start-up state at the defaults. -/
theorem resetMeetsInvariant : Obligations.ResetMeetsInvariant :=
  ⟨State.startup_inv .default, State.startup_inv⟩

end Sys2Proof.Machine
end

section
/-! The invariant of the block: every operation and every step keeps it, and so does every run (R20, R26, R30, R171, R197). -/

namespace Sys2Proof.Machine

/-! ### The invariant under each kind of update -/

/-- What the interrupts made of storage is in canonical form, and their `head` a number of `CW` bits. -/
theorem SameStorage.wf {s t : State} {j : Nat} (h : SameStorage (State.interrupt^[j] s) t) (hs : s.mem.wf s.params) :
    t.mem.wf s.params := by
  rw [h.1]; exact wf_interrupts hs j

theorem SameStorage.head_lt {s t : State} {j : Nat} (h : SameStorage (State.interrupt^[j] s) t)
    (hs : s.head < s.params.counterRange) : t.head < s.params.counterRange := by
  rw [h.2]; exact head_lt_interrupts hs j

theorem State.countersFit_iff (s : State) :
    s.countersFit = true ↔ s.head < s.params.counterRange ∧ s.tail < s.params.counterRange := by
  simp [State.countersFit]

theorem State.ringBound_iff (s : State) : s.ringBound = true ↔ s.occupancy ≤ s.params.capacity := by
  simp [State.ringBound]

theorem State.Inv.bound {s : State} (h : s.Inv) (hf : s.faultUnderrun = false) : s.occupancy ≤ s.params.capacity := by
  obtain ⟨-, -, hbound, -⟩ := h
  exact s.ringBound_iff.mp (hbound hf)

theorem State.Inv.enqueue {s : State} (h : s.Inv) (b : Byte) : (enqueue b s).1.Inv := by
  obtain ⟨hwf, hfit, hbound, htarget, hcurrent, hsink⟩ := h
  obtain ⟨hhead, htail⟩ := s.countersFit_iff.mp hfit
  simp only [State.Inv, State.countersFit_iff, State.ringBound_iff, enqueue_params, enqueue_tail, enqueue_target,
    enqueue_current, enqueue_sink, enqueue_faultUnderrun] at hbound ⊢
  refine ⟨wf_enqueue hwf b, ⟨head_lt_enqueue hhead b, htail⟩, fun hf => ?_, htarget, hcurrent, hsink⟩
  have g := grows_enqueue (hbound hf) b
  exact g.params ▸ g.bound

/-- Reads, signals and writes of targets keep the invariant. -/
theorem Interprets.inv {s t : State} (h : Interprets s t) (hs : s.Inv) : t.Inv := by
  obtain ⟨hwf, hfit, hbound, htarget, hcurrent, hsink⟩ := hs
  obtain ⟨hhead, htail⟩ := s.countersFit_iff.mp hfit
  obtain ⟨j, hj⟩ := h.ring
  simp only [State.Inv, State.countersFit_iff, State.ringBound_iff, h.params, h.tail, h.current, h.sink,
    h.faultUnderrun] at hbound ⊢
  refine ⟨hj.storage.wf hwf, ⟨hj.storage.head_lt hhead, htail⟩, fun hf => ?_, h.inScale htarget, hcurrent, hsink⟩
  have g := h.grows (hbound hf)
  exact h.params ▸ g.bound

/-- So does a pass, or any other operation that ends in an advance: the occupancy bound is lost only where the fault is
taken (R215). -/
theorem Scans.inv {s : State} {p : State × Result} (h : Scans s p) (hs : s.Inv) : p.1.Inv := by
  obtain ⟨hwf, hfit, hbound, htarget, hcurrent, hsink⟩ := hs
  obtain ⟨hhead, htail⟩ := s.countersFit_iff.mp hfit
  obtain ⟨j, hj⟩ := h.storage
  simp only [State.Inv, State.countersFit_iff, State.ringBound_iff, h.params, h.current, h.sink, h.fault] at hbound ⊢
  refine ⟨hj.wf hwf, ⟨hj.head_lt hhead, h.tail_lt htail⟩, fun hf => ?_, h.inScale htarget, hcurrent, hsink⟩
  obtain ⟨hfree, hnoFault⟩ := Bool.or_eq_false_iff.mp hf
  exact h.params ▸ h.bound (hbound hfree) (by simpa using hnoFault)

/-- The ramp stays between values of the scale (R170, R30). -/
theorem State.Inv.ramp {s : State} (h : s.Inv) : s.ramp.Inv := by
  obtain ⟨hwf, hfit, hbound, htarget, hcurrent, hsink⟩ := h
  exact ⟨hwf, hfit, hbound, htarget, inScale_rampDrive hcurrent htarget, hsink⟩

/-- The sink receives the current values (R171 case 2). -/
theorem State.Inv.emit {s : State} (h : s.Inv) : s.emit.Inv := by
  obtain ⟨hwf, hfit, hbound, htarget, hcurrent, hsink⟩ := h
  exact ⟨hwf, hfit, hbound, htarget, hcurrent, List.forall_mem_cons.mpr ⟨hcurrent, hsink⟩⟩

/-- The invariant says nothing of the model's records and inputs. -/
theorem State.Inv.withResult {s : State} (h : s.Inv) (r : Result) : ({ s with result := r } : State).Inv := h

theorem State.Inv.withRequests {s : State} (h : s.Inv) (rs : List Request) : ({ s with requests := rs } : State).Inv := h

theorem State.Inv.turn {s : State} (h : s.Inv) (a : AgentStep) : (s.turn a).Inv := by
  cases a <;> exact h

theorem State.turn_params (s : State) (a : AgentStep) : (s.turn a).params = s.params := by
  cases a <;> rfl

/-! ### Operations, steps and runs -/

theorem exec_inv {i : Instr} {s t : State} (hs : s.Inv) (h : exec i s = .next t) : t.Inv := by
  cases exec_does h with
  | pushes b _ ht => rw [ht]; exact (hs.enqueue b).withResult _
  | reads u r hu ht => rw [ht]; exact (hu.inv hs).withResult r
  | dispatches u hu ht => rw [ht]; exact (hu.inv hs).withResult _
  | advances p hp ht => rw [ht]; exact (hp.inv hs).withResult _
  | scans _ hp ht => rw [ht]; exact (hp.inv hs).withResult _
  | ramps _ ht => rw [ht]; exact hs.ramp.withResult _
  | emits _ ht => rw [ht]; exact hs.emit.withResult _
  | ticks _ hp _ ht => rw [ht]; exact (hp.inv hs).ramp.emit.withResult _
  | ticksFault _ hp _ ht => rw [ht]; exact (hp.inv hs).withResult _

theorem step_inv {s t : State} (hs : s.Inv) (h : step s = .next t) : t.Inv := by
  obtain ⟨-, ⟨i, u, hf, he⟩ | ⟨u, hf, rfl⟩⟩ := step_next h
  · obtain ⟨rs, rfl⟩ := fetch_instr hf
    exact exec_inv (hs.withRequests rs) he
  · obtain ⟨rs, rfl⟩ := fetch_wait hf
    exact (hs.withRequests rs).withResult _

/-- Settles O52: a step executes one instruction, by kinds of operation, or holds a frame back. -/
theorem stepKeepsInvariant : Obligations.StepKeepsInvariant := fun _ _ => step_inv

/-- A run from a state that meets the invariant meets it at every point, and its configuration stands. -/
theorem Schedule.Runs.inv {σ : Schedule} {r : Nat → State} (h : σ.Runs r) (h0 : (r 0).Inv) (n : Nat) :
    (r n).Inv ∧ (r n).params = (r 0).params := by
  induction n with
  | zero => exact ⟨h0, rfl⟩
  | succ n ih =>
    obtain ⟨hinv, hparams⟩ := ih
    refine ⟨step_inv (hinv.turn (σ n)) (h n), ?_⟩
    rw [step_params (h n), State.turn_params, hparams]

/-- Settles O57: the run starts in the start-up state, and all its states are fault-free, so that the invariant bounds the
occupancy. -/
theorem everyRunKeepsInvariant : Obligations.EveryRunKeepsInvariant := by
  intro p σ r h0 hr n
  obtain ⟨hinv, hparams⟩ := hr.inv (h0 ▸ State.startup_inv p) n
  have hp : (r n).params = p := by rw [hparams, h0]; rfl
  exact ⟨hinv, hp, hp ▸ hinv.bound (hr.faultFree n)⟩

end Sys2Proof.Machine
end

section
/-! Who writes what: storage and `head`, the throttle state and the sink, and the fault bit (R25, R28, R29, R32, R171, R193,
R215, R225). -/

namespace Sys2Proof.Machine

/-! ### Storage and `head` -/

/-- A `PUSH` answers what the handler's enqueue does (R110). -/
theorem exec_push (b : Byte) (s : State) :
    exec (.push b) s = .next { (enqueue b s).1 with result := (enqueue b s).2 } := rfl

theorem SameStorage.of_interrupts {s t : State} {j : Nat} (h : SameStorage (State.interrupt^[j] s) t) (hq : s.arrivals = []) :
    SameStorage s t := by
  rwa [State.interrupts_of_quiet hq] at h

/-- Every operation but `PUSH` is the CONSUMER's, and storage and `head` are then the interrupts' work (R25). -/
theorem exec_storage {i : Instr} {s t : State} (h : exec i s = .next t) (hi : ∀ b, i ≠ .push b) :
    ∃ j, SameStorage (State.interrupt^[j] s) t := by
  cases exec_does h with
  | pushes b hp => exact absurd hp (hi b)
  | reads u r hu ht => obtain ⟨j, hj⟩ := hu.ring; exact ⟨j, ht ▸ hj.storage⟩
  | dispatches u hu ht => obtain ⟨j, hj⟩ := hu.ring; exact ⟨j, ht ▸ hj.storage⟩
  | advances p hp ht => rw [ht]; exact hp.storage
  | scans _ hp ht => rw [ht]; exact hp.storage
  | ramps _ ht => exact ⟨0, ht ▸ ⟨s.ramp_mem, s.ramp_head⟩⟩
  | emits _ ht => exact ⟨0, ht ▸ ⟨s.emit_mem, s.emit_head⟩⟩
  | ticks _ hp _ ht => rw [ht]; exact hp.storage
  | ticksFault _ hp _ ht => rw [ht]; exact hp.storage

/-- Settles O46: a `PUSH` by the fields of the enqueue, every other operation by the storage it leaves. -/
theorem eachFieldHasOneWriter : Obligations.EachFieldHasOneWriter := by
  intro i s t h
  refine ⟨?_, fun hi => ?_⟩
  · rintro ⟨b, rfl⟩
    rw [exec_push] at h
    injection h with h
    subst h
    exact ⟨enqueue_tail b s, enqueue_target b s, enqueue_current b s, enqueue_faultUnderrun b s, enqueue_sink b s⟩
  · obtain ⟨j, hj⟩ := exec_storage h hi
    refine ⟨⟨j, hj⟩, fun hq => ?_⟩
    obtain ⟨hmem, hhead⟩ := hj.of_interrupts hq
    exact ⟨hhead, fun a => by rw [hmem]⟩

/-! ### The throttle state and the sink -/

theorem exec_target {i : Instr} {s t : State} (h : exec i s = .next t) (hscan : i ≠ .scan) (hdispatch : i ≠ .dispatch)
    (htick : i ≠ .tick) (hset : ∀ len v1 v2 vs, i ≠ .setThrottle len v1 v2 vs) : t.target = s.target := by
  cases exec_does h with
  | pushes b _ ht => rw [ht]; exact enqueue_target b s
  | reads u r _ ht _ _ hg => rw [ht]; exact hg
  | dispatches u _ _ hi =>
    obtain hi | ⟨len, v1, v2, vs, hi⟩ := hi
    · exact absurd hi hdispatch
    · exact absurd hi (hset len v1 v2 vs)
  | advances p _ ht _ hg => rw [ht]; exact hg
  | scans hi => exact absurd hi hscan
  | ramps _ ht => rw [ht]; exact s.ramp_target
  | emits _ ht => rw [ht]; exact s.emit_target
  | ticks hi => exact absurd hi htick
  | ticksFault hi => exact absurd hi htick

theorem exec_current {i : Instr} {s t : State} (h : exec i s = .next t) (hramp : i ≠ .rampStep) (htick : i ≠ .tick) :
    t.current = s.current := by
  cases exec_does h with
  | pushes b _ ht => rw [ht]; exact enqueue_current b s
  | reads u r hu ht => rw [ht]; exact hu.current
  | dispatches u hu ht => rw [ht]; exact hu.current
  | advances p hp ht => rw [ht]; exact hp.current
  | scans _ hp ht => rw [ht]; exact hp.current
  | ramps hi => exact absurd hi hramp
  | emits _ ht => rw [ht]; exact s.emit_current
  | ticks hi => exact absurd hi htick
  | ticksFault hi => exact absurd hi htick

theorem exec_sink {i : Instr} {s t : State} (h : exec i s = .next t) (hsink : i ≠ .sinkWrite) (htick : i ≠ .tick) :
    t.sink = s.sink := by
  cases exec_does h with
  | pushes b _ ht => rw [ht]; exact enqueue_sink b s
  | reads u r hu ht => rw [ht]; exact hu.sink
  | dispatches u hu ht => rw [ht]; exact hu.sink
  | advances p hp ht => rw [ht]; exact hp.sink
  | scans _ hp ht => rw [ht]; exact hp.sink
  | ramps _ ht => rw [ht]; exact s.ramp_sink
  | emits hi => exact absurd hi hsink
  | ticks hi => exact absurd hi htick
  | ticksFault hi => exact absurd hi htick

/-- Settles O47: one field at a time, by kinds of operation. -/
theorem throttleStateHasItsOwnWriters : Obligations.ThrottleStateHasItsOwnWriters :=
  fun _ _ _ h => ⟨exec_target h, exec_current h, exec_sink h⟩

/-! ### The fault bit -/

/-- No operation clears the bit (R32). -/
theorem exec_faultUnderrun_sticky {i : Instr} {s t : State} (h : exec i s = .next t) (hs : s.faultUnderrun = true) :
    t.faultUnderrun = true := by
  have hscans {p : State × Result} (hp : Scans s p) : p.1.faultUnderrun = true := by rw [hp.fault, hs, Bool.true_or]
  cases exec_does h with
  | pushes b _ ht => rw [ht]; exact (enqueue_faultUnderrun b s).trans hs
  | reads u r hu ht => rw [ht]; exact hu.faultUnderrun.trans hs
  | dispatches u hu ht => rw [ht]; exact hu.faultUnderrun.trans hs
  | advances p hp ht => rw [ht]; exact hscans hp
  | scans _ hp ht => rw [ht]; exact hscans hp
  | ramps _ ht => rw [ht]; exact s.ramp_faultUnderrun.trans hs
  | emits _ ht => rw [ht]; exact s.emit_faultUnderrun.trans hs
  | ticks _ hp _ ht => rw [ht]; exact hscans hp
  | ticksFault _ hp _ ht => rw [ht]; exact hscans hp

/-- `t` is the state in which AdvanceUnderrun(n) was raised during an operation from `s`: raised where `n` exceeded the
occupancy at the test, with only the interrupts in between (R113, R215). -/
def RaisedBy (s t : State) (n : Count) : Prop :=
  ∃ (u : State) (j : Nat), u.tail = s.tail ∧ SameStorage (State.interrupt^[j] s) u ∧ u.occupancy < n.toNat ∧
    t = { u.raiseUnderrun n with result := .fault }

/-- A pass that leaves the bit set where it was clear has raised (R215). -/
theorem Scans.raisedBy {s : State} {p : State × Result} (h : Scans s p) (hs : s.faultUnderrun = false)
    (hp : p.1.faultUnderrun = true) : p.2 = .fault ∧ ∃ n, RaisedBy s { p.1 with result := p.2 } n := by
  have hr : p.2 = .fault := by simpa [h.fault, hs] using hp
  obtain ⟨n, u, j, htail, hstorage, hlt, hu⟩ := h.raised hr
  exact ⟨hr, n, u, j, htail, hstorage, hlt, by rw [hr, hu]⟩

/-- An `ADVANCE(n)` that leaves the bit set where it was clear has raised AdvanceUnderrun(n). -/
theorem consume_raisedBy {s t : State} (h : Interprets s t) {n : Count} {r : Result} (hs : s.faultUnderrun = false)
    (hp : (consume n t).1.faultUnderrun = true) :
    RaisedBy s { (consume n t).1 with result := if (consume n t).2 then r else .fault } n := by
  have h1 := h.trans (interprets_interrupt t)
  by_cases hn : n.toNat ≤ t.interrupt.occupancy
  · simp [consume_ok hn, h.faultUnderrun, hs] at hp
  · obtain ⟨j, hj⟩ := h1.ring
    rw [consume_underrun (Nat.lt_of_not_le hn)]
    exact ⟨_, j, h1.tail, hj.storage, Nat.lt_of_not_le hn, rfl⟩

theorem exec_raises {i : Instr} {s t : State} (h : exec i s = .next t) (hs : s.faultUnderrun = false)
    (ht : t.faultUnderrun = true) :
    (∃ n, i = .advance n ∧ RaisedBy s t n) ∨ (∃ b0 b1, i = .resyncByte b0 b1 ∧ RaisedBy s t 1) ∨
      ((i = .scan ∨ i = .tick) ∧ ∃ n, RaisedBy s t n) := by
  have hclear {u : State} (hu : u.faultUnderrun = s.faultUnderrun) : u.faultUnderrun ≠ true := by simp [hu, hs]
  cases exec_does h with
  | pushes b _ he => exact absurd ht (he ▸ hclear (enqueue_faultUnderrun b s))
  | reads u r hu he => exact absurd ht (he ▸ hclear hu.faultUnderrun)
  | dispatches u hu he => exact absurd ht (he ▸ hclear hu.faultUnderrun)
  | ramps _ he => exact absurd ht (he ▸ hclear s.ramp_faultUnderrun)
  | emits _ he => exact absurd ht (he ▸ hclear s.emit_faultUnderrun)
  | advances p _ _ hi =>
    obtain ⟨n, rfl⟩ | ⟨b0, b1, rfl⟩ := hi
    · injection h with h
      subst h
      exact .inl ⟨n, rfl, consume_raisedBy (Interprets.refl s) hs ht⟩
    · injection h with h
      subst h
      exact .inr (.inl ⟨b0, b1, rfl, consume_raisedBy (interprets_signal s _) hs ht⟩)
  | scans hi hp he =>
    subst he
    exact .inr (.inr ⟨.inl hi, (hp.raisedBy hs ht).2⟩)
  | ticks hi hp hr he => subst he; exact absurd (hp.raisedBy hs ht).1 hr
  | ticksFault hi hp hr he =>
    subst he
    exact .inr (.inr ⟨.inr hi, hr ▸ (hp.raisedBy hs ht).2⟩)

/-- Settles O48: the raise is that of the one advance the operation performs. -/
theorem faultBitIsStickyAndRaisedByAdvance : Obligations.FaultBitIsStickyAndRaisedByAdvance := by
  intro i s t h
  refine ⟨exec_faultUnderrun_sticky h, fun hs ht => ?_⟩
  obtain ⟨n, rfl, u, j, htail, hstorage, hlt, hu⟩ | ⟨b0, b1, rfl, u, j, htail, hstorage, hlt, hu⟩ |
    ⟨hi, n, u, j, htail, hstorage, hlt, hu⟩ := exec_raises h hs ht
  · exact ⟨⟨n, u, j, htail, hstorage, hlt, hu, by rintro m ⟨⟩; rfl, by rintro _ _ ⟨⟩⟩, .inl ⟨n, rfl⟩⟩
  · exact ⟨⟨1, u, j, htail, hstorage, hlt, hu, by rintro m ⟨⟩, fun _ _ _ => rfl⟩, .inr (.inr (.inr ⟨b0, b1, rfl⟩))⟩
  · refine ⟨⟨n, u, j, htail, hstorage, hlt, hu, ?_, ?_⟩, ?_⟩
    · rintro m rfl
      simp at hi
    · rintro b0 b1 rfl
      simp at hi
    · obtain hi | hi := hi
      · exact .inr (.inl hi)
      · exact .inr (.inr (.inl hi))

end Sys2Proof.Machine
end

section
/-! The RingBuffer's operations one at a time: PUSH with room, AVAILABLE, and the two sides of ADVANCE (R110, R111, R113). -/

namespace Sys2Proof.Machine

theorem exec_push_room {s : State} (h : s.occupancy ≠ s.params.capacity) (b : Byte) :
    exec (.push b) s =
      .next { s with mem := s.mem.write s.pushSlot b, head := s.countUp s.head 1, result := .ok } := by
  rw [exec_push, enqueue_room h]

theorem exec_available (s : State) :
    exec .available s = .next { s.interrupt with result := .count s.interrupt.occupancy } := rfl

theorem exec_advance_ok {s : State} {n : Count} (h : n.toNat ≤ s.interrupt.occupancy) :
    exec (.advance n) s = .next { s.interrupt.interrupt.moveTail n with result := .none } := by
  simp [exec, execAdvance, finish, consume_ok h]

theorem exec_advance_underrun {s : State} {n : Count} (h : s.interrupt.occupancy < n.toNat) :
    exec (.advance n) s = .next { s.interrupt.raiseUnderrun n with result := .fault } := by
  simp [exec, execAdvance, finish, consume_underrun h]

/-- The occupancy over the integers, as R111 writes it. -/
theorem State.occupancy_cast (s : State) :
    (s.occupancy : Int) = ((s.head : Int) - s.tail) % s.params.counterRange := by
  have hp : (s.params.counterRange : Int) ≠ 0 := Int.natCast_ne_zero.mpr s.params.counterRange_pos.ne'
  exact Int.toNat_of_nonneg (Int.emod_nonneg _ hp)

theorem State.raiseUnderrun_consumerConditions (s : State) (n : Count) :
    (s.raiseUnderrun n).consumerConditions = .advanceUnderrun n :: s.consumerConditions := rfl

/-- Settles O11: the enqueue with room, its slot read back after the write. -/
theorem pushStoresByteAndCountsHead : Obligations.PushStoresByteAndCountsHead := by
  intro b s h
  exact ⟨_, exec_push_room h b, rfl, fun a => Memory.read_write s.mem s.pushSlot a b, rfl, rfl, rfl, rfl, rfl, rfl, rfl,
    rfl, rfl, rfl⟩

/-- Settles O13: one interrupt, then the occupancy, which no interrupt lets shrink or pass the capacity. -/
theorem availableCountsUnreadBytes : Obligations.AvailableCountsUnreadBytes := by
  intro s
  refine ⟨_, _, exec_available s, rfl, ?_, fun hb => ?_, ⟨rfl, rfl, rfl, rfl, rfl, rfl⟩, s.interrupt_tail,
    s.interrupt_target, s.interrupt_current, s.interrupt_faultUnderrun, s.interrupt_sink,
    s.interrupt_consumerConditions, fun hq => ?_⟩
  · rw [State.occupancy_cast, State.interrupt_tail, State.interrupt_params]
  · have g := grows_interrupt hb
    exact ⟨g.le, g.params ▸ g.bound⟩
  · rw [State.interrupt_of_quiet hq]
    exact ⟨⟨rfl, rfl, rfl, rfl, rfl, rfl⟩, fun _ => rfl⟩

/-- Settles O15: two interrupts, then the move of the tail. -/
theorem advanceMovesTail : Obligations.AdvanceMovesTail := by
  intro n s h
  have hi : Interprets s s.interrupt.interrupt := (interprets_interrupt s).trans (interprets_interrupt _)
  refine ⟨_, exec_advance_ok h, ?_, rfl, ⟨rfl, rfl⟩, ?_, hi.current, hi.faultUnderrun, hi.sink, ?_, fun hq => ?_⟩
  · show State.countUp _ _ _ = _
    rw [State.countUp, hi.params, hi.tail]
  · exact (State.interrupt_target _).trans s.interrupt_target
  · exact (State.interrupt_consumerConditions _).trans s.interrupt_consumerConditions
  · rw [State.interrupt_of_quiet hq] at h ⊢
    rw [State.interrupt_of_quiet hq]
    exact ⟨State.occupancy_moveTail h, rfl, fun _ => rfl⟩

/-- Settles O16: one interrupt, then the raise. -/
theorem advancePastHeadTakesUnderrun : Obligations.AdvancePastHeadTakesUnderrun := by
  intro n s h
  refine ⟨_, exec_advance_underrun h, rfl, rfl, ?_, s.interrupt_target, s.interrupt_current, s.interrupt_sink, rfl,
    fun _ => rfl, fun hq => ?_⟩
  · exact (State.raiseUnderrun_consumerConditions _ n).trans (by rw [State.interrupt_consumerConditions])
  · rw [State.interrupt_of_quiet hq]
    exact ⟨rfl, fun _ => rfl⟩

end Sys2Proof.Machine
end

section
/-! The counters of `CW` bits stand for unbounded counts, so that their width makes no observable difference (R27, R65,
D1). -/

namespace Sys2Proof.Machine

/-! ### Unbounded counts -/

/-- `head` and `tail` stand for the numbers of bytes pushed and consumed, of which a buffer holds the difference (R27). -/
structure State.Counts (s : State) (pushed consumed : Nat) : Prop where
  le : consumed ≤ pushed
  bound : pushed ≤ consumed + s.params.capacity
  head : s.head = pushed % s.params.counterRange
  tail : s.tail = consumed % s.params.counterRange

theorem State.Counts.congr {s t : State} {pushed consumed : Nat} (h : s.Counts pushed consumed) (hh : t.head = s.head)
    (ht : t.tail = s.tail) (hp : t.params = s.params) : t.Counts pushed consumed :=
  ⟨h.le, hp ▸ h.bound, by rw [hh, hp, h.head], by rw [ht, hp, h.tail]⟩

theorem State.Counts.occupancy {s : State} {pushed consumed : Nat} (h : s.Counts pushed consumed) :
    s.occupancy = pushed - consumed := by
  have hbound := h.bound
  have hrange := s.params.counterRange_ge
  have hcap := s.params.capacity_ge
  have hhead : s.head ≡ pushed [MOD s.params.counterRange] := h.head ▸ Nat.mod_modEq _ _
  have htail : s.tail ≡ consumed [MOD s.params.counterRange] := h.tail ▸ Nat.mod_modEq _ _
  refine occ_eq_of_modEq (by omega) (hhead.trans ?_)
  have := (htail.add_right (pushed - consumed)).symm
  rwa [Nat.add_sub_cancel' h.le] at this

theorem State.Counts.full_iff {s : State} {pushed consumed : Nat} (h : s.Counts pushed consumed) :
    s.occupancy = s.params.capacity ↔ pushed = consumed + s.params.capacity := by
  have := h.le
  rw [h.occupancy]
  omega

theorem State.Counts.pushSlot {s : State} {pushed consumed : Nat} (h : s.Counts pushed consumed) :
    s.pushSlot = pushed % s.params.capacity := by
  rw [State.pushSlot, index, h.head, Nat.mod_mod_of_dvd _ s.params.capacity_dvd]

theorem State.Counts.peekSlot {s : State} {pushed consumed : Nat} (h : s.Counts pushed consumed) (k : Nat) :
    s.peekSlot k = (consumed + k) % s.params.capacity := by
  have htail : s.tail ≡ consumed [MOD s.params.counterRange] := h.tail ▸ Nat.mod_modEq _ _
  exact (htail.of_dvd s.params.capacity_dvd).add_right k

/-- A `PUSH` counts `pushed` up unless the buffer is full (R110). -/
theorem State.Counts.enqueue {s : State} {pushed consumed : Nat} (h : s.Counts pushed consumed) (b : Byte) :
    (enqueue b s).1.Counts (if pushed = consumed + s.params.capacity then pushed else pushed + 1) consumed := by
  have hle := h.le
  have hbound := h.bound
  by_cases hf : pushed = consumed + s.params.capacity
  · rw [if_pos hf, enqueue_full (h.full_iff.mpr hf)]
    exact h.congr rfl rfl rfl
  · rw [if_neg hf, enqueue_room (fun ho => hf (h.full_iff.mp ho))]
    refine ⟨Nat.le_succ_of_le hle, by show _ ≤ consumed + s.params.capacity; omega, ?_, h.tail⟩
    show s.countUp s.head 1 = _
    rw [State.countUp, h.head, Nat.mod_add_mod]

/-- An `ADVANCE` within the occupancy counts `consumed` up (R113). -/
theorem State.Counts.moveTail {s : State} {pushed consumed : Nat} (h : s.Counts pushed consumed) {n : Count}
    (hn : n.toNat ≤ s.occupancy) : (s.moveTail n).Counts pushed (consumed + n.toNat) := by
  have hle := h.le
  have hbound := h.bound
  rw [h.occupancy] at hn
  refine ⟨by omega, by show _ ≤ _ + s.params.capacity; omega, h.head, ?_⟩
  show s.countUp s.tail n.toNat = _ % s.params.counterRange
  rw [State.countUp, h.tail, Nat.mod_add_mod]

/-- Settles O20: what the counts give of the occupancy and the slots, and the two operations that count. -/
theorem countersFollowUnboundedCounts : Obligations.CountersFollowUnboundedCounts := by
  intro pushed consumed s hle hbound hhead htail
  have hs : s.Counts pushed consumed := ⟨hle, hbound, hhead, htail⟩
  refine ⟨hs.occupancy, hs.pushSlot, hs.peekSlot, fun b => ?_, fun n hq hn => ?_⟩
  · have hb := hs.enqueue b
    refine ⟨_, exec_push b s, ?_, ?_⟩
    · exact (enqueue_tail b s).trans htail
    · exact hb.head.trans (by rw [enqueue_params])
  · have hi := State.interrupt_of_quiet hq
    have hn' : n.toNat ≤ s.occupancy := hs.occupancy ▸ hn
    have hm := hs.moveTail hn'
    refine ⟨_, exec_advance_ok (by rwa [hi]), ?_, ?_⟩
    · rw [hi, hi]; exact hm.head
    · rw [hi, hi]; exact hm.tail

/-! ### States that differ in their counters and their width alone -/

/-- `t` is `s` with a counter width, a `head` and a `tail` of its own. -/
def SameButCounters (s t : State) : Prop :=
  ∃ (w : Nat) (hw : s.params.indexWidth < w) (head tail : Nat),
    t = { s with head := head, tail := tail, params := { s.params with counterWidth := w, counterWidth_gt := hw } }

theorem State.sameButWidth_iff (s t : State) :
    s.SameButWidth t ↔ ∃ pushed consumed, s.Counts pushed consumed ∧ t.Counts pushed consumed ∧ SameButCounters s t := by
  constructor
  · rintro ⟨pushed, consumed, hle, hbound, hsh, hst, hth, htt, ⟨w, hw, hp⟩, ht⟩
    refine ⟨pushed, consumed, ⟨hle, hbound, hsh, hst⟩, ⟨hle, by rw [hp]; exact hbound, hth, htt⟩, w, hw, t.head, t.tail, ?_⟩
    rw [← hp]; exact ht
  · rintro ⟨pushed, consumed, hs, ht, w, hw, head, tail, rfl⟩
    exact ⟨pushed, consumed, hs.le, hs.bound, hs.head, hs.tail, ht.head, ht.tail, ⟨w, hw, rfl⟩, rfl⟩

namespace SameButCounters

variable {s t : State} (h : SameButCounters s t)
include h

theorem mem : t.mem = s.mem := by obtain ⟨w, hw, head, tail, rfl⟩ := h; rfl
theorem target : t.target = s.target := by obtain ⟨w, hw, head, tail, rfl⟩ := h; rfl
theorem current : t.current = s.current := by obtain ⟨w, hw, head, tail, rfl⟩ := h; rfl
theorem sink : t.sink = s.sink := by obtain ⟨w, hw, head, tail, rfl⟩ := h; rfl
theorem conditions : t.conditions = s.conditions := by obtain ⟨w, hw, head, tail, rfl⟩ := h; rfl
theorem faultUnderrun : t.faultUnderrun = s.faultUnderrun := by obtain ⟨w, hw, head, tail, rfl⟩ := h; rfl
theorem arrivals : t.arrivals = s.arrivals := by obtain ⟨w, hw, head, tail, rfl⟩ := h; rfl
theorem capacity : t.params.capacity = s.params.capacity := by obtain ⟨w, hw, head, tail, rfl⟩ := h; rfl
theorem sentinel : t.params.sentinel = s.params.sentinel := by obtain ⟨w, hw, head, tail, rfl⟩ := h; rfl
theorem minMsgSize : t.params.minMsgSize = s.params.minMsgSize := by obtain ⟨w, hw, head, tail, rfl⟩ := h; rfl
theorem cmdSetThrottle : t.params.cmdSetThrottle = s.params.cmdSetThrottle := by
  obtain ⟨w, hw, head, tail, rfl⟩ := h; rfl
theorem channelNumbers : t.params.channelNumbers = s.params.channelNumbers := by
  obtain ⟨w, hw, head, tail, rfl⟩ := h; rfl

/-! No update reads a counter's width but to count. -/

theorem signal (c : Condition) : SameButCounters (s.signal c) (t.signal c) := by
  obtain ⟨w, hw, head, tail, rfl⟩ := h; exact ⟨w, hw, head, tail, rfl⟩

theorem ramp : SameButCounters s.ramp t.ramp := by
  obtain ⟨w, hw, head, tail, rfl⟩ := h; exact ⟨w, hw, head, tail, rfl⟩

theorem emit : SameButCounters s.emit t.emit := by
  obtain ⟨w, hw, head, tail, rfl⟩ := h; exact ⟨w, hw, head, tail, rfl⟩

theorem raiseUnderrun (n : Count) : SameButCounters (s.raiseUnderrun n) (t.raiseUnderrun n) := by
  obtain ⟨w, hw, head, tail, rfl⟩ := h; exact ⟨w, hw, head, _, rfl⟩

theorem moveTail (n : Count) : SameButCounters (s.moveTail n) (t.moveTail n) := by
  obtain ⟨w, hw, head, tail, rfl⟩ := h; exact ⟨w, hw, head, _, rfl⟩

theorem withResult (r : Result) : SameButCounters { s with result := r } { t with result := r } := by
  obtain ⟨w, hw, head, tail, rfl⟩ := h; exact ⟨w, hw, head, tail, rfl⟩

theorem withArrivals (a : List (List Byte)) : SameButCounters { s with arrivals := a } { t with arrivals := a } := by
  obtain ⟨w, hw, head, tail, rfl⟩ := h; exact ⟨w, hw, head, tail, rfl⟩

theorem withStorage (m : Memory) (hd hd' : Nat) :
    SameButCounters { s with mem := m, head := hd } { t with mem := m, head := hd' } := by
  obtain ⟨w, hw, head, tail, rfl⟩ := h; exact ⟨w, hw, hd', tail, rfl⟩

theorem setTarget (i : Nat) (v : Immediate) : SameButCounters (s.setTarget i v) (t.setTarget i v) := by
  obtain ⟨w, hw, head, tail, rfl⟩ := h
  unfold State.setTarget
  by_cases ho : outOfRange s.params v.toNat = true
  · rw [if_pos ho, if_pos (by exact ho)]; exact ⟨w, hw, head, tail, rfl⟩
  · rw [if_neg ho, if_neg (by exact ho)]; exact ⟨w, hw, head, tail, rfl⟩

end SameButCounters

/-! ### The same bytes pushed and consumed: what the CONSUMER can tell -/

namespace State.SameButWidth

theorem sameButCounters {s t : State} (h : s.SameButWidth t) : SameButCounters s t := by
  obtain ⟨_, _, _, _, hc⟩ := (sameButWidth_iff s t).mp h
  exact hc

theorem occupancy {s t : State} (h : s.SameButWidth t) : t.occupancy = s.occupancy := by
  obtain ⟨_, _, hs, ht, _⟩ := (sameButWidth_iff s t).mp h
  rw [hs.occupancy, ht.occupancy]

theorem bound {s t : State} (h : s.SameButWidth t) : s.occupancy ≤ s.params.capacity := by
  obtain ⟨_, _, hs, _, _⟩ := (sameButWidth_iff s t).mp h
  exact hs.occupancy ▸ Nat.sub_le_iff_le_add'.mpr hs.bound

theorem byteAt {s t : State} (h : s.SameButWidth t) (k : Nat) : t.byteAt k = s.byteAt k := by
  obtain ⟨_, _, hs, ht, hc⟩ := (sameButWidth_iff s t).mp h
  rw [State.byteAt, State.byteAt, hs.peekSlot, ht.peekSlot, hc.mem, hc.capacity]

/-- An update that writes no counter keeps the counts. -/
theorem update {s t u v : State} (h : s.SameButWidth t) (hu : u.head = s.head ∧ u.tail = s.tail ∧ u.params = s.params)
    (hv : v.head = t.head ∧ v.tail = t.tail ∧ v.params = t.params) (hc : SameButCounters u v) : u.SameButWidth v := by
  obtain ⟨pushed, consumed, hs, ht, -⟩ := (sameButWidth_iff s t).mp h
  obtain ⟨huhead, hutail, huparams⟩ := hu
  obtain ⟨hvhead, hvtail, hvparams⟩ := hv
  exact (sameButWidth_iff u v).mpr
    ⟨pushed, consumed, hs.congr huhead hutail huparams, ht.congr hvhead hvtail hvparams, hc⟩

theorem signal {s t : State} (h : s.SameButWidth t) (c : Condition) : (s.signal c).SameButWidth (t.signal c) :=
  h.update ⟨rfl, rfl, rfl⟩ ⟨rfl, rfl, rfl⟩ (h.sameButCounters.signal c)

theorem ramp {s t : State} (h : s.SameButWidth t) : s.ramp.SameButWidth t.ramp :=
  h.update ⟨rfl, rfl, rfl⟩ ⟨rfl, rfl, rfl⟩ h.sameButCounters.ramp

theorem emit {s t : State} (h : s.SameButWidth t) : s.emit.SameButWidth t.emit :=
  h.update ⟨rfl, rfl, rfl⟩ ⟨rfl, rfl, rfl⟩ h.sameButCounters.emit

theorem withResult {s t : State} (h : s.SameButWidth t) (r : Result) :
    State.SameButWidth { s with result := r } { t with result := r } :=
  h.update ⟨rfl, rfl, rfl⟩ ⟨rfl, rfl, rfl⟩ (h.sameButCounters.withResult r)

theorem setTarget {s t : State} (h : s.SameButWidth t) (i : Nat) (v : Immediate) :
    (s.setTarget i v).SameButWidth (t.setTarget i v) :=
  h.update (by simp) (by simp) (h.sameButCounters.setTarget i v)

theorem moveTail {s t : State} (h : s.SameButWidth t) {n : Count} (hn : n.toNat ≤ s.occupancy) :
    (s.moveTail n).SameButWidth (t.moveTail n) := by
  obtain ⟨pushed, consumed, hs, ht, hc⟩ := (sameButWidth_iff s t).mp h
  exact (sameButWidth_iff _ _).mpr
    ⟨pushed, _, hs.moveTail hn, ht.moveTail (h.occupancy ▸ hn), hc.moveTail n⟩

/-- A `PUSH` stores at the same slot and answers alike. -/
theorem enqueue {s t : State} (h : s.SameButWidth t) (b : Byte) :
    (enqueue b s).1.SameButWidth (enqueue b t).1 ∧ (enqueue b t).2 = (enqueue b s).2 := by
  obtain ⟨pushed, consumed, hs, ht, hc⟩ := (sameButWidth_iff s t).mp h
  have hcount := ht.enqueue b
  rw [hc.capacity] at hcount
  have hkeep (hc' : SameButCounters (Machine.enqueue b s).1 (Machine.enqueue b t).1) :=
    (sameButWidth_iff _ _).mpr ⟨_, consumed, hs.enqueue b, hcount, hc'⟩
  by_cases hf : s.occupancy = s.params.capacity
  · have hf' : t.occupancy = t.params.capacity := by rw [h.occupancy, hc.capacity, hf]
    refine ⟨hkeep ?_, ?_⟩ <;> rw [enqueue_full hf, enqueue_full hf']
    exact hc.signal _
  · have hf' : t.occupancy ≠ t.params.capacity := by rwa [h.occupancy, hc.capacity]
    refine ⟨hkeep ?_, ?_⟩ <;> rw [enqueue_room hf, enqueue_room hf']
    rw [hs.pushSlot, ht.pushSlot, hc.mem, hc.capacity]
    exact hc.withStorage _ _ _

theorem deliver {s t : State} (h : s.SameButWidth t) (bs : List Byte) :
    (deliver bs s).SameButWidth (deliver bs t) := by
  induction bs generalizing s t with
  | nil => exact h
  | cons b bs ih => exact ih (h.enqueue b).1

theorem interrupt {s t : State} (h : s.SameButWidth t) : s.interrupt.SameButWidth t.interrupt := by
  have ha := h.sameButCounters.arrivals
  cases hs : s.arrivals with
  | nil => rwa [State.interrupt_of_quiet hs, State.interrupt_of_quiet (ha.trans hs)]
  | cons bs rest =>
    simp only [State.interrupt, ha, hs]
    have hrest := h.update (u := { s with arrivals := rest }) (v := { t with arrivals := rest }) ⟨rfl, rfl, rfl⟩
      ⟨rfl, rfl, rfl⟩ (h.sameButCounters.withArrivals rest)
    exact hrest.deliver bs

/-! ### The Dispatcher -/

theorem readTarget {s t : State} (h : s.SameButWidth t) (i : Nat) : (readTarget i s).SameButWidth (readTarget i t) := by
  have hhi := h.interrupt
  have hlo := hhi.interrupt
  simp only [Machine.readTarget, readAhead_fst, readAhead_snd, hhi.byteAt, hlo.byteAt]
  exact hlo.setTarget _ _

theorem readTargets {s t : State} (h : s.SameButWidth t) (is : List Nat) :
    (readTargets is s).SameButWidth (readTargets is t) := by
  induction is generalizing s t with
  | nil => exact h
  | cons i is ih => exact ih (h.readTarget i)

theorem applyTargets {s t : State} (h : s.SameButWidth t) (i : Nat) (vs : List Immediate) :
    (applyTargets i vs s).SameButWidth (applyTargets i vs t) := by
  induction vs generalizing i s t with
  | nil => exact h
  | cons v vs ih => exact ih (h.setTarget i v) _

theorem interpretFrame {s t : State} (h : s.SameButWidth t) : (interpretFrame s).SameButWidth (interpretFrame t) := by
  have hcmd := h.interrupt
  simp only [Machine.interpretFrame, readAhead_fst, readAhead_snd, hcmd.byteAt, h.sameButCounters.cmdSetThrottle]
  split
  · rw [readThrottle, readThrottle, hcmd.sameButCounters.channelNumbers]
    exact hcmd.readTargets _
  · exact hcmd.signal _

end State.SameButWidth

/-! ### Operations -/

/-- Two blocks answer alike: the same result, the same state but for the counters, and but for their width alone unless both
took AdvanceUnderrun. -/
structure AnswersAlike (p q : State × Result) : Prop where
  result : q.2 = p.2
  state : SameButCounters p.1 q.1
  counts : p.2 ≠ .fault → p.1.SameButWidth q.1

theorem State.SameButWidth.answers {s t : State} (h : s.SameButWidth t) {r r' : Result} (hr : r' = r) :
    AnswersAlike (s, r) (t, r') :=
  ⟨hr, h.sameButCounters, fun _ => h⟩

/-- The test of an `ADVANCE` goes the same way in both blocks. -/
theorem State.SameButWidth.consume {s t : State} (h : s.SameButWidth t) (n : Count) (r : Result) :
    AnswersAlike ((consume n s).1, if (consume n s).2 then r else .fault)
      ((consume n t).1, if (consume n t).2 then r else .fault) := by
  have h1 := h.interrupt
  by_cases hn : n.toNat ≤ s.interrupt.occupancy
  · rw [consume_ok hn, consume_ok (h1.occupancy ▸ hn)]
    exact (h1.interrupt.moveTail (hn.trans (grows_interrupt h1.bound).le)).answers rfl
  · have hn' := Nat.lt_of_not_le hn
    rw [consume_underrun hn', consume_underrun (h1.occupancy ▸ hn')]
    exact ⟨rfl, h1.sameButCounters.raiseUnderrun n, fun hf => absurd rfl hf⟩

theorem State.SameButWidth.resync {s t : State} (h : s.SameButWidth t) (b0 b1 : Byte) :
    AnswersAlike (resync b0 b1 s) (resync b0 b1 t) :=
  (h.signal _).consume 1 (.outcome .resync)

theorem State.SameButWidth.takeFrame {s t : State} (h : s.SameButWidth t) :
    AnswersAlike (takeFrame s) (takeFrame t) := by
  have hlen := h.interpretFrame.interrupt
  simp only [Machine.takeFrame, readAhead_fst, readAhead_snd, hlen.byteAt]
  exact hlen.consume _ (.outcome .dispatched)

theorem State.SameButWidth.inspect {s t : State} (h : s.SameButWidth t) : AnswersAlike (inspect s) (inspect t) := by
  have h0 := h.interrupt
  have h1 := h0.interrupt
  simp only [Machine.inspect, readAhead_fst, readAhead_snd, h0.byteAt, h1.byteAt, isSentinelPair,
    h.sameButCounters.sentinel]
  split
  · exact h1.takeFrame
  · exact h1.resync _ _

theorem State.SameButWidth.scanPass {s t : State} (h : s.SameButWidth t) :
    AnswersAlike (scanPass s) (scanPass t) := by
  have h0 := h.interrupt
  simp only [Machine.scanPass, readOccupancy_fst, readOccupancy_snd, h0.occupancy, belowGuard,
    h.sameButCounters.minMsgSize]
  split
  · exact h0.answers rfl
  · exact h0.inspect

/-- Unless the scan raised, a tick goes on to the ramp and the sink write (R190). -/
theorem actuate_next {p : State × Result} (h : p.2 ≠ .fault) : actuate p = (p.1.ramp.emit, p.2) := by
  obtain ⟨u, r⟩ := p
  cases r
  case fault => exact absurd rfl h
  all_goals rfl

theorem AnswersAlike.actuate {p q : State × Result} (h : AnswersAlike p q) : AnswersAlike (actuate p) (actuate q) := by
  obtain ⟨hresult, hstate, hcounts⟩ := h
  by_cases hr : p.2 = .fault
  · simp only [Machine.actuate, hr, hresult.trans hr]
    exact ⟨hresult, hstate, hcounts⟩
  · rw [actuate_next hr, actuate_next (hresult ▸ hr), hresult]
    exact (hcounts hr).ramp.emit.answers rfl

/-- Every instruction, as the pair of state and result with which it ends. -/
theorem State.SameButWidth.exec {s t : State} (h : s.SameButWidth t) (i : Instr) :
    ∃ p q, exec i s = finish p ∧ exec i t = finish q ∧ AnswersAlike p q := by
  cases i with
  | push b =>
    obtain ⟨hkeep, hresult⟩ := h.enqueue b
    exact ⟨_, _, rfl, rfl, hresult, hkeep.sameButCounters, fun _ => hkeep⟩
  | available => exact ⟨_, _, rfl, rfl, h.interrupt.answers (congrArg Result.count h.interrupt.occupancy)⟩
  | peek k => exact ⟨_, _, rfl, rfl, h.interrupt.answers (congrArg Result.byte (h.interrupt.byteAt _))⟩
  | advance n => exact ⟨_, _, rfl, rfl, h.consume n .none⟩
  | scan => exact ⟨_, _, rfl, rfl, h.scanPass⟩
  | dispatch => exact ⟨_, _, rfl, rfl, h.interpretFrame.answers rfl⟩
  | rampStep => exact ⟨_, _, rfl, rfl, h.ramp.answers rfl⟩
  | sinkWrite => exact ⟨_, _, rfl, rfl, h.emit.answers rfl⟩
  | tick => exact ⟨_, _, rfl, rfl, h.scanPass.actuate⟩
  | setThrottle len v1 v2 vs => exact ⟨_, _, rfl, rfl, (h.applyTargets 1 (v1 :: v2 :: vs)).answers rfl⟩
  | cmdReserved len cmd => exact ⟨_, _, rfl, rfl, (h.signal _).answers rfl⟩
  | resyncByte b0 b1 => exact ⟨_, _, rfl, rfl, h.resync b0 b1⟩

/-- Settles O21: a simulation, one lemma per operation. -/
theorem counterWidthDoesNotMatter : Obligations.CounterWidthDoesNotMatter := by
  intro i s t h
  obtain ⟨p, q, hs, ht, hresult, hstate, hcounts⟩ := h.exec i
  refine ⟨_, _, hs, ht, hresult.symm, hstate.target.symm, hstate.current.symm, hstate.sink.symm, hstate.conditions.symm,
    hstate.faultUnderrun.symm, fun hf => ?_⟩
  rw [hresult]
  exact (hcounts hf).withResult _

end Sys2Proof.Machine
end

section
/-! The RingBuffer as a queue: PEEK, one operation after another, and any number of pushes that fit (R52, R65, R112, R116). -/

namespace Sys2Proof.Machine

theorem exec_peek (k : Byte) (s : State) :
    exec (.peek k) s = .next { s.interrupt with result := .byte (s.interrupt.byteAt k.toNat) } := rfl

/-- Growth within the capacity of the state it starts from: the two have the same configuration. -/
theorem Grows.le_capacity {s t : State} (h : Grows s t) : t.occupancy ≤ s.params.capacity := h.params ▸ h.bound

/-- Settles O14: one interrupt, then the read, at which the unread bytes stand (R63). -/
theorem peekReadsAheadOfTail : Obligations.PeekReadsAheadOfTail := by
  intro k s
  have hread : s.interrupt.byteAt k.toNat = s.interrupt.mem.read ((s.tail + k.toNat) % s.params.capacity) := by
    rw [State.byteAt_eq, State.interrupt_tail, State.interrupt_params]
  refine ⟨_, _, exec_peek k s, rfl, hread, fun hb hk => (grows_interrupt hb).byteAt _ hk, ⟨rfl, rfl, rfl, rfl, rfl, rfl⟩,
    s.interrupt_tail, s.interrupt_target, s.interrupt_current, s.interrupt_faultUnderrun, s.interrupt_sink,
    s.interrupt_consumerConditions, fun hq => ?_⟩
  rw [State.interrupt_of_quiet hq]
  exact ⟨⟨rfl, rfl, rfl, rfl, rfl, rfl⟩, fun _ => rfl⟩

/-- A `PUSH` answers Ok below `C` unread bytes and Overflow at `C` (R110). -/
theorem enqueue_snd_room {s : State} (h : s.occupancy < s.params.capacity) (b : Byte) : (enqueue b s).2 = .ok := by
  rw [enqueue_room h.ne]

theorem enqueue_snd_full {s : State} (h : s.occupancy = s.params.capacity) (b : Byte) : (enqueue b s).2 = .overflow := by
  rw [enqueue_full h]

/-- Settles O17: the four operations, each by what it does to the unread bytes. -/
theorem ringBufferRefinesByteQueue : Obligations.RingBufferRefinesByteQueue := by
  intro s hb hq
  have hi := State.interrupt_of_quiet hq
  simp only [State.unread_length]
  refine ⟨fun b => ?_, ?_, fun k hk => ?_, fun n hn => ?_⟩
  · exact ⟨_, exec_push b s, (grows_enqueue hb b).le_capacity, (enqueue_arrivals b s).trans hq,
      fun h => ⟨unread_enqueue h b, enqueue_snd_room h b⟩, fun h => ⟨unread_enqueue_full h b, enqueue_snd_full h b⟩⟩
  · refine ⟨_, exec_available s, ?_⟩
    rw [hi]
    exact ⟨hb, hq, rfl, rfl⟩
  · refine ⟨_, s.byteAt k.toNat, exec_peek k s, ?_⟩
    rw [hi]
    exact ⟨hb, hq, rfl, State.unread_getElem? s hk, rfl⟩
  · refine ⟨_, exec_advance_ok (by rwa [hi]), ?_⟩
    rw [hi, hi]
    have ho : (s.moveTail n).occupancy ≤ s.params.capacity := by
      rw [State.occupancy_moveTail hn]; exact (Nat.sub_le _ _).trans hb
    exact ⟨ho, hq, rfl, State.unread_moveTail hn⟩

theorem head_enqueue_room {s : State} (h : s.occupancy < s.params.capacity) (b : Byte) :
    (enqueue b s).1.head = (s.head + 1) % s.params.counterRange := by
  rw [enqueue_room h.ne]; rfl

/-- Bytes that fit count `head` up by their number. -/
theorem head_deliver {s : State} {bs : List Byte} (hs : s.head < s.params.counterRange)
    (h : s.occupancy + bs.length ≤ s.params.capacity) :
    (deliver bs s).head = (s.head + bs.length) % s.params.counterRange := by
  induction bs generalizing s with
  | nil => exact (Nat.mod_eq_of_lt hs).symm
  | cons b bs ih =>
    simp only [List.length_cons] at h ⊢
    have hroom : s.occupancy < s.params.capacity := by omega
    rw [deliver, ih (by rw [enqueue_params]; exact head_lt_enqueue hs b)
      (by rw [occupancy_enqueue hroom, enqueue_params]; omega), enqueue_params, head_enqueue_room hroom, Nat.mod_add_mod]
    congr 1
    omega

/-- A trace that begins with a push into a buffer with room goes on from the enqueue. -/
theorem runTrace_push_room {s : State} (h : s.occupancy < s.params.capacity) (b : Byte) (ls : List TraceLine) :
    runTrace (.push b .ok :: ls) s = runTrace ls { (enqueue b s).1 with result := .ok } := by
  simp only [runTrace, TraceLine.instr, TraceLine.claimed, exec_push, enqueue_snd_room h, if_true]

/-- A trace of pushes that fit makes of the ring what the handler makes of it when the same bytes arrive (R95, R192). -/
theorem runTrace_pushes {bs : List Byte} {s u : State} (h : SameRing u s) (hfit : u.occupancy + bs.length ≤ u.params.capacity) :
    ∃ t, runTrace (bs.map fun b => .push b .ok) s = some t ∧ SameRing (deliver bs u) t := by
  induction bs generalizing s u with
  | nil => exact ⟨s, rfl, h⟩
  | cons b bs ih =>
    simp only [List.length_cons] at hfit
    have hroom : s.occupancy < s.params.capacity := by rw [h.occupancy, h.params]; omega
    obtain ⟨hparams, hmem, hhead, htail, harrivals⟩ := h.enqueue b
    rw [List.map_cons, runTrace_push_room hroom]
    exact ih ⟨hparams, hmem, hhead, htail, harrivals⟩ (by rw [occupancy_enqueue (by omega), enqueue_params]; omega)

/-- Settles O18: the trace delivers the bytes, and a delivery that fits appends them. -/
theorem pushesThatFitQueueInOrder : Obligations.PushesThatFitQueueInOrder := by
  intro bs s hfit
  obtain ⟨t, hrun, hring⟩ := runTrace_pushes (SameRing.refl s) hfit
  have hunread : t.unread = s.unread ++ bs :=
    (State.unread_congr hring.occupancy fun k _ => hring.byteAt k).trans (unread_deliver hfit)
  refine ⟨t, hrun, hunread, ?_, hring.tail.trans (deliver_tail bs s), fun hs => hring.head.trans (head_deliver hs hfit)⟩
  rw [← State.unread_length, hunread, List.length_append, State.unread_length]

end Sys2Proof.Machine
end

section
/-! Unread bytes stand until an operation that advances consumes them, and a counted byte is read as it was published (R62,
R63). -/

namespace Sys2Proof.Machine

theorem Grows.withResult {s t : State} (h : Grows s t) (r : Result) : Grows s { t with result := r } :=
  ⟨h.params, h.tail, h.le, h.bound, h.byteAt⟩

/-- The operations that perform no `ADVANCE`: all but those of R113, R130, R133 and R190. -/
structure KeepsUnread (i : Instr) : Prop where
  advance : ∀ n, i ≠ .advance n
  scan : i ≠ .scan
  tick : i ≠ .tick
  resyncByte : ∀ b0 b1, i ≠ .resyncByte b0 b1

/-- Without an `ADVANCE` an operation lets the ring grow only (R63). -/
theorem exec_grows {i : Instr} {s t : State} (hi : KeepsUnread i) (hb : s.occupancy ≤ s.params.capacity)
    (h : exec i s = .next t) : Grows s t := by
  cases exec_does h with
  | pushes b _ ht => rw [ht]; exact (grows_enqueue hb b).withResult _
  | reads u r hu ht => rw [ht]; exact (hu.grows hb).withResult r
  | dispatches u hu ht => rw [ht]; exact (hu.grows hb).withResult _
  | advances p _ _ ha =>
    obtain ⟨n, ha⟩ | ⟨b0, b1, ha⟩ := ha
    · exact absurd ha (hi.advance n)
    · exact absurd ha (hi.resyncByte b0 b1)
  | scans hscan => exact absurd hscan hi.scan
  | ramps _ ht => rw [ht]; exact ⟨rfl, rfl, le_rfl, hb, fun _ _ => rfl⟩
  | emits _ ht => rw [ht]; exact ⟨rfl, rfl, le_rfl, hb, fun _ _ => rfl⟩
  | ticks htick => exact absurd htick hi.tick
  | ticksFault htick => exact absurd htick hi.tick

/-- Settles O49: growth leaves the tail and every unread byte. -/
theorem unreadBytesStandUntilConsumed : Obligations.UnreadBytesStandUntilConsumed := by
  intro i s t hb hadvance hscan htick hresync h
  have g := exec_grows ⟨hadvance, hscan, htick, hresync⟩ hb h
  exact ⟨g.tail, g.le, g.le_capacity, g.byteAt⟩

/-- Any number of operations without an `ADVANCE` lets the ring grow only, and each of them answers. -/
theorem execEach_grows {is : List Instr} {s : State} (hi : ∀ i ∈ is, KeepsUnread i) (hb : s.occupancy ≤ s.params.capacity) :
    ∃ t, execEach is s = .next t ∧ Grows s t := by
  induction is generalizing s with
  | nil => exact ⟨s, rfl, Grows.refl hb⟩
  | cons i is ih =>
    obtain ⟨hi, his⟩ := List.forall_mem_cons.mp hi
    obtain ⟨u, hu⟩ := exec_answers i s
    have g := exec_grows hi hb hu
    obtain ⟨t, ht, gt⟩ := ih his g.bound
    exact ⟨t, by simp only [execEach, hu, ht], g.trans gt⟩

theorem keepsUnread_of_reads_or_pushes {i : Instr} (h : i = .available ∨ (∃ j, i = .peek j) ∨ ∃ b, i = .push b) :
    KeepsUnread i := by
  obtain rfl | ⟨j, rfl⟩ | ⟨b, rfl⟩ := h <;> constructor <;> simp

/-- Settles O19: what AVAILABLE counted is unread at its end, and stays so up to the read and through its interrupt. -/
theorem countedBytesAreReadAsPublished : Obligations.CountedBytesAreReadAsPublished := by
  intro s hb
  refine ⟨_, _, exec_available s, rfl, fun between hbetween => ?_⟩
  have hbt := (grows_interrupt hb).bound
  obtain ⟨u, hu, g⟩ := execEach_grows (s := { s.interrupt with result := .count s.interrupt.occupancy })
    (fun i hi => keepsUnread_of_reads_or_pushes (hbetween i hi)) hbt
  refine ⟨u, hu, fun k hk => ⟨_, exec_peek k u, ?_⟩⟩
  have hstands := (g.trans (grows_interrupt g.bound)).byteAt k.toNat hk
  rw [hstands, State.byteAt_eq]
  simp only [State.interrupt_params]

end Sys2Proof.Machine
end

section
/-! Frames read byte by byte under any interrupt schedule: DISPATCH of a whole frame, and a located frame that has arrived in
part (R64, R113, R132, R151, R154, R193, R252, R253). -/

namespace Sys2Proof.Machine

/-- With no interrupt scheduled, storage and `head` are then those of the start. -/
theorem SameStorage.quiet {s t : State} {j : Nat} (h : SameStorage (State.interrupt^[j] s) t) (hq : s.arrivals = []) :
    t.head = s.head ∧ ∀ a, t.mem.read a = s.mem.read a := by
  obtain ⟨hmem, hhead⟩ := h.of_interrupts hq
  exact ⟨hhead, fun a => by rw [hmem]⟩

/-- Settles O34: the racing reads are reads of unread bytes. -/
theorem dispatchOfWholeFrameIgnoresInterrupts : Obligations.DispatchOfWholeFrameIgnoresInterrupts := by
  intro s hframe hb hcmd
  unfold Params.frameBytes at hframe
  have hcmd' : (State.interrupt^[0 + 1] s).byteAt 3 = s.params.cmdSetThrottle :=
    ((grows_interrupts hb 1).byteAt 3 (by omega)).trans hcmd
  obtain ⟨hring, htarget⟩ := interpretFrame_throttle (j := 0) (SameRing.refl s) hcmd'
  have hi := interprets_interpretFrame s
  refine ⟨_, rfl, htarget.trans (Drive.of_congr fun i hmem => State.racingTarget_unread hb ?_ _), rfl, hi.tail, hi.current,
    hi.faultUnderrun, hi.sink, ?_, (hi.grows hb).byteAt⟩
  · have := (s.params.mem_channelNumbers i).mp hmem
    omega
  · rw [Nat.zero_add] at hring
    exact ⟨hring.mem, hring.head⟩

/-- The state in which a pass that locates a frame begins its advance: dispatched, and the length byte read. -/
def State.beforeAdvance (s : State) : State := frameSeen s.interrupt.interrupt.interrupt

theorem interprets_beforeAdvance (s : State) : Interprets s s.beforeAdvance :=
  (((interprets_interrupt s).trans (interprets_interrupt _)).trans (interprets_interrupt _)).trans (interprets_frameSeen _)

/-- The advance tests the occupancy that the interrupts before its access have left (R113, R193). -/
theorem beforeAdvance_test {s : State} (hb : s.occupancy ≤ s.params.capacity) (hl : s.interrupt.locates = true) :
    s.beforeAdvance.interrupt.occupancy = (State.interrupt^[s.advanceAccess] s).occupancy := by
  obtain ⟨hring, -⟩ := frameSeen_racing hb hl
  exact hring.occupancy

/-- A located frame whose `2 + len` is within the occupancy at the test is consumed (R113, R132). -/
theorem scanPass_consumed {s : State} (hb : s.occupancy ≤ s.params.capacity) (hl : s.interrupt.locates = true)
    (hadv : 2 + (s.interrupt.byteAt 2).toNat ≤ (State.interrupt^[s.advanceAccess] s).occupancy) :
    scanPass s = (s.beforeAdvance.interrupt.interrupt.moveTail (frameAdvance (s.interrupt.byteAt 2)),
      .outcome .dispatched) := by
  rw [(scanPass_located hb hl).1, ← State.beforeAdvance, consume_ok (by rwa [frameAdvance_toNat, beforeAdvance_test hb hl])]
  rfl

/-- A located frame whose `2 + len` exceeds the occupancy at the test underruns (R113, R253). -/
theorem scanPass_underrun {s : State} (hb : s.occupancy ≤ s.params.capacity) (hl : s.interrupt.locates = true)
    (hadv : (State.interrupt^[s.advanceAccess] s).occupancy < 2 + (s.interrupt.byteAt 2).toNat) :
    scanPass s = (s.beforeAdvance.interrupt.raiseUnderrun (frameAdvance (s.interrupt.byteAt 2)), .fault) := by
  rw [(scanPass_located hb hl).1, ← State.beforeAdvance,
    consume_underrun (by rwa [frameAdvance_toNat, beforeAdvance_test hb hl])]
  rfl

/-- Settles O27: the frame is consumed one access after the test, and the tick goes on to the ramp and the sink. -/
theorem incompleteFrameIsDispatchedFromStorage : Obligations.IncompleteFrameIsDispatchedFromStorage := by
  intro s hb hl hadv
  have hpass := scanPass_consumed hb hl hadv
  obtain ⟨hring, htarget⟩ := frameSeen_racing hb hl
  have hi := ((interprets_beforeAdvance s).trans (interprets_interrupt _)).trans (interprets_interrupt _)
  have hstorage : SameStorage (State.interrupt^[s.advanceAccess + 1] s)
      { s.beforeAdvance.interrupt.interrupt.moveTail (frameAdvance (s.interrupt.byteAt 2)) with
        result := .outcome .dispatched } := ⟨hring.next.mem, hring.next.head⟩
  have htail : (s.beforeAdvance.interrupt.interrupt.moveTail (frameAdvance (s.interrupt.byteAt 2))).tail =
      (s.tail + 2 + (s.interrupt.byteAt 2).toNat) % s.params.counterRange := by
    rw [State.moveTail_tail, State.countUp, hi.tail, hi.params, frameAdvance_toNat, Nat.add_assoc]
  refine ⟨_, _, exec_scan hpass, rfl, ?_, htail, hi.current, hi.faultUnderrun, hi.sink, hstorage, hstorage.quiet,
    exec_tick_next hpass (by simp), rfl, rfl, rfl, ⟨rfl, rfl⟩, hi.faultUnderrun, ?_, ?_⟩
  · exact ((State.interrupt_target _).trans (State.interrupt_target _)).trans htarget
  · exact congrArg (_ :: ·) hi.sink
  · exact congrArg₂ (rampDrive · · _) hi.params hi.current

/-- Settles O28: the raise leaves what the pass had done up to the test, and ends the tick there. -/
theorem scanPastDataTakesUnderrun : Obligations.ScanPastDataTakesUnderrun := by
  intro s hb hl hadv
  have hpass := scanPass_underrun hb hl hadv
  obtain ⟨hring, htarget⟩ := frameSeen_racing hb hl
  have hi := (interprets_beforeAdvance s).trans (interprets_interrupt _)
  have hstorage : SameStorage (State.interrupt^[s.advanceAccess] s)
      { s.beforeAdvance.interrupt.raiseUnderrun (frameAdvance (s.interrupt.byteAt 2)) with result := .fault } :=
    ⟨hring.mem, hring.head⟩
  exact ⟨_, exec_scan hpass, exec_tick_fault hpass, rfl, rfl, (State.interrupt_target _).trans htarget, hi.current, hi.sink,
    hstorage, hstorage.quiet⟩

end Sys2Proof.Machine
end

section
/-! Where pushes fall inside a tick that stays within its snapshot makes no difference to the CONSUMER (R62 to R64, R193,
R194). -/

namespace Sys2Proof.Machine

/-- `s` and `t` agree in everything the CONSUMER owns, in its conditions and in what the sink received: storage, `head` and
the schedule may differ. -/
structure SameForConsumer (s t : State) : Prop where
  params : t.params = s.params
  tail : t.tail = s.tail
  target : t.target = s.target
  current : t.current = s.current
  faultUnderrun : t.faultUnderrun = s.faultUnderrun
  sink : t.sink = s.sink
  consumerConditions : t.consumerConditions = s.consumerConditions

@[simp] theorem State.setTarget_consumerConditions (s : State) (i : Nat) (v : Immediate) :
    (s.setTarget i v).consumerConditions =
      if outOfRange s.params v.toNat then .outOfRangeValue i v :: s.consumerConditions else s.consumerConditions := by
  unfold State.consumerConditions
  rw [State.setTarget_conditions]
  split <;> rfl

namespace SameForConsumer

variable {s t : State} (h : SameForConsumer s t)
include h

theorem interrupt : SameForConsumer s.interrupt t.interrupt := by
  constructor <;> simp [h.params, h.tail, h.target, h.current, h.faultUnderrun, h.sink, h.consumerConditions]

theorem signal (c : Condition) : SameForConsumer (s.signal c) (t.signal c) := by
  constructor <;> simp [h.params, h.tail, h.target, h.current, h.faultUnderrun, h.sink, h.consumerConditions]

theorem setTarget (i : Nat) (v : Immediate) : SameForConsumer (s.setTarget i v) (t.setTarget i v) := by
  constructor <;> simp [h.params, h.tail, h.target, h.current, h.faultUnderrun, h.sink, h.consumerConditions]

theorem moveTail (n : Count) : SameForConsumer (s.moveTail n) (t.moveTail n) :=
  ⟨h.params, by simp [State.countUp, h.params, h.tail], h.target, h.current, h.faultUnderrun, h.sink, h.consumerConditions⟩

theorem rampEmit : SameForConsumer s.ramp.emit t.ramp.emit := by
  have hcurrent : t.ramp.current = s.ramp.current := by simp [h.params, h.current, h.target]
  exact ⟨h.params, h.tail, h.target, hcurrent, h.faultUnderrun, congrArg₂ (· :: ·) hcurrent h.sink, h.consumerConditions⟩

end SameForConsumer

/-- The CONSUMER finds the same in `s` and `t` as far as `n` bytes ahead of the tail, all of them unread in both. -/
structure SameAhead (n : Nat) (s t : State) : Prop extends SameForConsumer s t where
  left : n ≤ s.occupancy ∧ s.occupancy ≤ s.params.capacity
  right : n ≤ t.occupancy ∧ t.occupancy ≤ t.params.capacity
  byteAt : ∀ k < n, t.byteAt k = s.byteAt k

namespace SameAhead

variable {n : Nat} {s t : State} (h : SameAhead n s t)
include h

/-- Whatever is pushed to either buffer, the unread bytes stand (R63). -/
theorem interrupt : SameAhead n s.interrupt t.interrupt := by
  obtain ⟨hs, hsb⟩ := h.left
  obtain ⟨ht, htb⟩ := h.right
  have gs := grows_interrupt hsb
  have gt := grows_interrupt htb
  refine ⟨h.toSameForConsumer.interrupt, ⟨hs.trans gs.le, gs.bound⟩, ⟨ht.trans gt.le, gt.bound⟩, fun k hk => ?_⟩
  rw [gs.byteAt k (hk.trans_le hs), gt.byteAt k (hk.trans_le ht), h.byteAt k hk]

theorem signal (c : Condition) : SameAhead n (s.signal c) (t.signal c) :=
  ⟨h.toSameForConsumer.signal c, h.left, h.right, h.byteAt⟩

theorem setTarget (i : Nat) (v : Immediate) : SameAhead n (s.setTarget i v) (t.setTarget i v) :=
  ⟨h.toSameForConsumer.setTarget i v, by simpa using h.left, by simpa using h.right, by simpa using h.byteAt⟩

/-- One channel, both of whose bytes are unread. -/
theorem readTarget {i : Nat} (hi : i ∈ s.params.channelNumbers) (hn : 3 + 2 * i < n) :
    SameAhead n (readTarget i s) (readTarget i t) := by
  have hhi := h.interrupt
  have hlo := hhi.interrupt
  have ehi := hhi.byteAt (2 + 2 * i) (by omega)
  have elo := hlo.byteAt (3 + 2 * i) hn
  simp only [Machine.readTarget, readAhead_fst, readAhead_snd, hiOffset_toNat hi, loOffset_toNat hi, ehi, elo]
  exact hlo.setTarget _ _

theorem readTargets {is : List Nat} (his : ∀ i ∈ is, i ∈ s.params.channelNumbers ∧ 3 + 2 * i < n) :
    SameAhead n (readTargets is s) (readTargets is t) := by
  induction is generalizing s t with
  | nil => exact h
  | cons i is ih =>
    obtain ⟨⟨hi, hn⟩, his⟩ := List.forall_mem_cons.mp his
    exact ih (h.readTarget hi hn) (by rwa [(interprets_readTarget i s).params])

/-- `DISPATCH` of a frame of which all that is read is unread (R150 to R152). -/
theorem interpretFrame (h4 : 4 ≤ n) (hframe : s.byteAt 3 = s.params.cmdSetThrottle → s.params.frameBytes ≤ n) :
    SameAhead n (interpretFrame s) (interpretFrame t) := by
  have hcmd := h.interrupt
  have estands : s.interrupt.byteAt 3 = s.byteAt 3 := (grows_interrupt h.left.2).byteAt 3 (by have := h.left.1; omega)
  have esame := (hcmd.byteAt 3 (by omega)).trans estands
  simp only [Machine.interpretFrame, readAhead_fst, readAhead_snd, show (3 : Byte).toNat = 3 from rfl, estands, esame,
    h.params]
  split
  case isTrue hc =>
    rw [readThrottle, readThrottle, hcmd.params]
    refine hcmd.readTargets fun i hi => ⟨hi, ?_⟩
    have hlen := hframe hc
    have hrange := (Params.mem_channelNumbers _ i).mp hi
    rw [State.interrupt_params] at hrange
    unfold Params.frameBytes at hlen
    omega
  case isFalse => exact hcmd.signal _

end SameAhead

/-- Two passes answer the CONSUMER the same, and neither raises. -/
structure AnswersSame (p q : State × Result) : Prop where
  state : SameForConsumer p.1 q.1
  result : q.2 = p.2
  noFault : p.2 ≠ .fault

namespace SameAhead

variable {n : Nat} {s t : State} (h : SameAhead n s t)
include h

/-- An `ADVANCE` by no more than `n` goes through in both (R113). -/
theorem advance {m : Count} (hm : m.toNat ≤ n) (o : ScanOutcome) :
    AnswersSame (advanceOr o (consume m s)) (advanceOr o (consume m t)) := by
  have htest := h.interrupt
  rw [consume_ok (hm.trans htest.left.1), consume_ok (hm.trans htest.right.1)]
  exact ⟨htest.interrupt.toSameForConsumer.moveTail m, rfl, by simp [advanceOr]⟩

theorem takeFrame (h4 : 4 ≤ n) (hframe : s.byteAt 3 = s.params.cmdSetThrottle → s.params.frameBytes ≤ n)
    (hadv : 2 + (s.byteAt 2).toNat ≤ n) : AnswersSame (takeFrame s) (takeFrame t) := by
  have hs := h.left.1
  have ht := h.right.1
  rw [takeFrame_eq h.left.2 (by omega), takeFrame_eq h.right.2 (by omega), h.byteAt 2 (by omega)]
  exact (h.interpretFrame h4 hframe).interrupt.advance (by rwa [frameAdvance_toNat]) .dispatched

/-- A pass past its guard, whose reads and advance stay within `n` bytes (R130, R194). -/
theorem inspect (h4 : 4 ≤ n) (hframe : isSentinelPair s.params (s.byteAt 0) (s.byteAt 1) = true →
      2 + (s.byteAt 2).toNat ≤ n ∧ (s.byteAt 3 = s.params.cmdSetThrottle → s.params.frameBytes ≤ n)) :
    AnswersSame (inspect s) (inspect t) := by
  have hs := h.left.1
  have ht := h.right.1
  have hread := h.interrupt.interrupt
  have g := (grows_interrupt h.left.2).trans (grows_interrupt (grows_interrupt h.left.2).bound)
  rw [inspect_eq h.left.2 (by omega), inspect_eq h.right.2 (by omega), h.byteAt 0 (by omega), h.byteAt 1 (by omega), h.params]
  split
  case isTrue hpair =>
    obtain ⟨hadv, hcmd⟩ := hframe hpair
    refine hread.takeFrame h4 ?_ ?_
    · rwa [g.byteAt 3 (by omega), g.params]
    · rwa [g.byteAt 2 (by omega)]
  case isFalse => exact (hread.signal _).advance (m := 1) (le_trans (by decide) h4) .resync

end SameAhead

/-- From the snapshot on, the same buffer with no further interrupt: the CONSUMER finds the same in all it counts. -/
theorem sameAhead_without_arrivals {s : State} (hb : s.occupancy ≤ s.params.capacity) :
    SameAhead s.occupancy s { s with arrivals := [] } :=
  ⟨⟨rfl, rfl, rfl, rfl, rfl, rfl, rfl⟩, ⟨le_rfl, hb⟩, ⟨le_rfl, hb⟩, fun _ _ => rfl⟩

/-- A pass that stays within its snapshot answers as it does with no further interrupt from the snapshot on (R194). -/
theorem scanPass_without_arrivals {s : State} (hb : s.occupancy ≤ s.params.capacity)
    (hframe : s.interrupt.locates = true → 2 + (s.interrupt.byteAt 2).toNat ≤ s.interrupt.occupancy ∧
      (s.interrupt.byteAt 3 = s.params.cmdSetThrottle → s.params.frameBytes ≤ s.interrupt.occupancy)) :
    AnswersSame (scanPass s) (scanPass { s.interrupt with arrivals := [] }) := by
  have h := sameAhead_without_arrivals (grows_interrupt hb).bound
  have hquiet : ({ s.interrupt with arrivals := [] } : State).interrupt = { s.interrupt with arrivals := [] } :=
    State.interrupt_of_quiet rfl
  by_cases hguard : s.interrupt.occupancy < s.params.minMsgSize
  · have hguard' : s.interrupt.occupancy < s.interrupt.params.minMsgSize := by rwa [State.interrupt_params]
    rw [scanPass_wait hguard, scanPass_wait (by rw [hquiet]; exact hguard'), hquiet]
    exact ⟨h.toSameForConsumer, rfl, by simp⟩
  · have hguard' : s.interrupt.params.minMsgSize ≤ s.interrupt.occupancy := by
      rw [State.interrupt_params]; exact Nat.le_of_not_lt hguard
    rw [scanPass_inspect (Nat.le_of_not_lt hguard), scanPass_inspect (by rw [hquiet]; exact hguard'), hquiet]
    refine h.inspect (s.interrupt.params.minMsgSize_range.1.trans hguard') fun hpair => ?_
    rw [State.interrupt_params]
    exact hframe ((State.locates_iff _).mpr ⟨hguard', (isSentinelPair_iff _ _ _).mp hpair⟩)

/-- Settles O30: the two passes agree for the CONSUMER, and so do the ramp and the sink write after them. -/
theorem interleavingInsideTickDoesNotMatter : Obligations.InterleavingInsideTickDoesNotMatter := by
  intro s hb hframe
  obtain ⟨hstate, hresult, hnoFault⟩ := scanPass_without_arrivals hb hframe
  have hend := hstate.rampEmit
  exact ⟨_, _, exec_tick_next rfl hnoFault, exec_tick_next rfl (hresult ▸ hnoFault), hresult.symm, hend.tail.symm,
    hend.target.symm, hend.current.symm, hend.sink.symm, hend.faultUnderrun.symm, hend.consumerConditions.symm⟩

end Sys2Proof.Machine
end

section
/-! The decoder: which request words and which bytes it accepts, and that it and the encoder undo each other (R81 to R94). -/

namespace Sys2Proof

/-! ### Request words -/

/-- The strobe bit is the highest 1 of a word. -/
theorem strobed_iff (w k : Nat) : w / 2 ^ k = 1 ↔ 2 ^ k ≤ w ∧ w < 2 ^ (k + 1) := by
  rw [Nat.div_eq_iff (by positivity), pow_succ]
  have := Nat.two_pow_pos k
  omega

/-- A port accepts the words with the strobe bit just above its operand bits and nothing above, each as its operation. -/
theorem decode_port_iff {p : Params} {q : Port} {w : Word} {i : Instr} :
    decode p (.port q w) = .ok i ↔ (2 ^ q.operandBits ≤ w.toNat ∧ w.toNat < 2 ^ (q.operandBits + 1)) ∧ i = q.instr w := by
  rw [← strobed_iff]
  exact ⟨decodePort_inv, fun ⟨hw, hi⟩ => hi ▸ decodePort_strobed hw⟩

/-- Cutting the strobe bit off a word leaves its operand. -/
theorem setWidth_of_strobed {k : Nat} {w : Word} {x : BitVec k} (h : w.toNat = 2 ^ k + x.toNat) : w.setWidth k = x := by
  apply BitVec.eq_of_toNat_eq
  rw [BitVec.toNat_setWidth, h, Nat.add_mod_left, Nat.mod_eq_of_lt x.isLt]

/-- The word of a port operation carries the operation's operand. -/
theorem instr_of_encode {p : Params} {i : Instr} {q : Port} {w : Word} (h : encode p i = .port q w) : i = q.instr w := by
  cases i with
  | push b => cases h; exact congrArg Instr.push (setWidth_of_strobed (strobed_byte b)).symm
  | peek k => cases h; exact congrArg Instr.peek (setWidth_of_strobed (strobed_byte k)).symm
  | advance n => cases h; exact congrArg Instr.advance (setWidth_of_strobed (strobed_count n)).symm
  | available => cases h; rfl
  | scan => cases h; rfl
  | dispatch => cases h; rfl
  | rampStep => cases h; rfl
  | sinkWrite => cases h; rfl
  | tick => cases h; rfl
  | setThrottle len v1 v2 vs => cases h
  | cmdReserved len cmd => cases h
  | resyncByte b0 b1 => cases h

/-- Every operand of a port operation is in its domain by its type (R93). -/
theorem Port.instr_wf (p : Params) (q : Port) (w : Word) : (q.instr w).wf p = true := by
  cases q <;> rfl

/-- A strobed word is its strobe bit and its operand. -/
theorem toNat_of_strobed {k : Nat} {w : Word} (h : w.toNat / 2 ^ k = 1) : 2 ^ k + (w.setWidth k).toNat = w.toNat := by
  have hsplit := Nat.div_add_mod w.toNat (2 ^ k)
  rwa [h, mul_one, ← BitVec.toNat_setWidth] at hsplit

/-- Putting the strobe bit above the operand of a strobed word gives the word back. -/
theorem encode_instr {p : Params} {q : Port} {w : Word} (h : w.toNat / 2 ^ q.operandBits = 1) :
    encode p (q.instr w) = .port q w := by
  have hbyte (hw : w.toNat / 2 ^ 8 = 1) : (0b1_00000000 + (w.setWidth 8).setWidth 16 : Word) = w :=
    BitVec.eq_of_toNat_eq ((strobed_byte _).trans (toNat_of_strobed hw))
  have hcount (hw : w.toNat / 2 ^ 9 = 1) : (0b1_000000000 + (w.setWidth 9).setWidth 16 : Word) = w :=
    BitVec.eq_of_toNat_eq ((strobed_count _).trans (toNat_of_strobed hw))
  have hbare (hw : w.toNat / 2 ^ 0 = 1) : (1 : Word) = w := BitVec.eq_of_toNat_eq (hw.symm.trans (Nat.div_one _))
  cases q with
  | push => exact congrArg (Encoded.port .push) (hbyte h)
  | peek => exact congrArg (Encoded.port .peek) (hbyte h)
  | advance => exact congrArg (Encoded.port .advance) (hcount h)
  | available => exact congrArg (Encoded.port .available) (hbare h)
  | scan => exact congrArg (Encoded.port .scan) (hbare h)
  | dispatch => exact congrArg (Encoded.port .dispatch) (hbare h)
  | rampStep => exact congrArg (Encoded.port .rampStep) (hbare h)
  | sinkWrite => exact congrArg (Encoded.port .sinkWrite) (hbare h)
  | tick => exact congrArg (Encoded.port .tick) (hbare h)

/-! ### Bytes of the stream -/

/-- The three outcomes of R90 with the bytes each is read from; those behind are not read. -/
inductive WireOutcome (p : Params) : List Byte → Instr → Prop where
  | resyncByte (b0 b1 : Byte) (rest : List Byte) (h : ¬(b0 = p.sentinel ∧ b1 = p.sentinel)) :
      WireOutcome p (b0 :: b1 :: rest) (.resyncByte b0 b1)
  | cmdReserved (len cmd : Byte) (rest : List Byte) (h : cmd ≠ p.cmdSetThrottle) :
      WireOutcome p (p.sentinel :: p.sentinel :: len :: cmd :: rest) (.cmdReserved len cmd)
  | setThrottle (len : Byte) (v1 v2 : Immediate) (vs : List Immediate) (payload : List Byte)
      (h : decodeValues p.channels payload = .ok (v1 :: v2 :: vs)) :
      WireOutcome p (p.sentinel :: p.sentinel :: len :: p.cmdSetThrottle :: payload) (.setThrottle len v1 v2 vs)

theorem WireOutcome.decode {p : Params} {bytes : List Byte} {i : Instr} (h : WireOutcome p bytes i) :
    decode p (.wire bytes) = .ok i := by
  cases h with
  | resyncByte b0 b1 rest h => exact if_neg h
  | cmdReserved len cmd rest h => exact (if_pos ⟨rfl, rfl⟩).trans (if_neg h)
  | setThrottle len v1 v2 vs payload h =>
    refine (if_pos ⟨rfl, rfl⟩).trans ((if_pos rfl).trans ?_)
    simp only [decodeThrottle, h]

theorem decodeThrottle_inv {p : Params} {len : Byte} {payload : List Byte} {i : Instr}
    (h : decodeThrottle p len payload = .ok i) :
    ∃ v1 v2 vs, decodeValues p.channels payload = .ok (v1 :: v2 :: vs) ∧ i = .setThrottle len v1 v2 vs := by
  unfold decodeThrottle at h
  split at h
  · next v1 v2 vs hv => exact ⟨v1, v2, vs, hv, (Except.ok.inj h).symm⟩
  · cases h
  · cases h

/-- The decoder of the bytes at the tail has these outcomes and no other (R90, R94). -/
theorem decode_wire_iff {p : Params} {bytes : List Byte} {i : Instr} :
    decode p (.wire bytes) = .ok i ↔ WireOutcome p bytes i := by
  refine ⟨fun h => ?_, WireOutcome.decode⟩
  change decodeWire p bytes = .ok i at h
  unfold decodeWire at h
  split at h
  · next b0 b1 rest =>
    split at h
    · next hpair =>
      obtain ⟨rfl, rfl⟩ := hpair
      unfold decodeFrame at h
      split at h
      · next len cmd payload =>
        split at h
        · next hcmd =>
          obtain ⟨v1, v2, vs, hv, rfl⟩ := decodeThrottle_inv h
          rw [hcmd]
          exact .setThrottle len v1 v2 vs payload hv
        · next hcmd =>
          cases h
          exact .cmdReserved len cmd payload hcmd
      · cases h
    · next hpair =>
      cases h
      exact .resyncByte b0 b1 rest hpair
  · cases h

theorem Instr.wf_resyncByte {p : Params} {b0 b1 : Byte} :
    (Instr.resyncByte b0 b1).wf p = true ↔ ¬(b0 = p.sentinel ∧ b1 = p.sentinel) := by
  simp [Instr.wf, imp_iff_not_or]

theorem Instr.wf_cmdReserved {p : Params} {len cmd : Byte} :
    (Instr.cmdReserved len cmd).wf p = true ↔ cmd ≠ p.cmdSetThrottle := by
  simp [Instr.wf]

theorem Instr.wf_setThrottle {p : Params} {len : Byte} {v1 v2 : Immediate} {vs : List Immediate} :
    (Instr.setThrottle len v1 v2 vs).wf p = true ↔ (v1 :: v2 :: vs).length = p.channels := by
  simp [Instr.wf]

/-- Each outcome is well-formed, and the bytes begin with its encoding (R81, R84). -/
theorem WireOutcome.encode {p : Params} {bytes : List Byte} {i : Instr} (h : WireOutcome p bytes i) :
    i.wf p = true ∧ ∃ read rest, encode p i = .wire read ∧ bytes = read ++ rest := by
  cases h with
  | resyncByte b0 b1 rest h => exact ⟨Instr.wf_resyncByte.mpr h, _, rest, rfl, rfl⟩
  | cmdReserved len cmd rest h => exact ⟨Instr.wf_cmdReserved.mpr h, _, rest, rfl, rfl⟩
  | setThrottle len v1 v2 vs payload h =>
    obtain ⟨hlength, rest, rfl⟩ := decodeValues_inv h
    exact ⟨Instr.wf_setThrottle.mpr hlength, _, rest, rfl, rfl⟩

/-- The encoding of a well-formed outcome is read as that outcome. -/
theorem wireOutcome_of_encode {p : Params} {i : Instr} {bytes : List Byte} (hwf : i.wf p = true)
    (h : encode p i = .wire bytes) : WireOutcome p bytes i := by
  cases i with
  | resyncByte b0 b1 => cases h; exact .resyncByte b0 b1 [] (Instr.wf_resyncByte.mp hwf)
  | cmdReserved len cmd => cases h; exact .cmdReserved len cmd [] (Instr.wf_cmdReserved.mp hwf)
  | setThrottle len v1 v2 vs =>
    cases h
    have hvalues := decodeValues_valueBytes (v1 :: v2 :: vs) []
    rw [List.append_nil, Instr.wf_setThrottle.mp hwf] at hvalues
    exact .setThrottle len v1 v2 vs _ hvalues
  | push b => cases h
  | available => cases h
  | peek k => cases h
  | advance n => cases h
  | scan => cases h
  | dispatch => cases h
  | rampStep => cases h
  | sinkWrite => cases h
  | tick => cases h

/-! ### The two round trips -/

/-- The encoding of a well-formed instruction has the shape of `Laws/PerInstr.lean`. -/
theorem encode_shape (i : Instr) : Laws.EncodingShape.Statement i := by
  cases i with
  | push b => exact Laws.EncodingShape.push b
  | available => exact Laws.EncodingShape.available
  | peek k => exact Laws.EncodingShape.peek k
  | advance n => exact Laws.EncodingShape.advance n
  | scan => exact Laws.EncodingShape.scan
  | dispatch => exact Laws.EncodingShape.dispatch
  | rampStep => exact Laws.EncodingShape.rampStep
  | sinkWrite => exact Laws.EncodingShape.sinkWrite
  | tick => exact Laws.EncodingShape.tick
  | setThrottle len v1 v2 vs => exact Laws.EncodingShape.setThrottle len v1 v2 vs
  | cmdReserved len cmd => exact Laws.EncodingShape.cmdReserved len cmd
  | resyncByte b0 b1 => exact Laws.EncodingShape.resyncByte b0 b1

theorem decode_encode {p : Params} {i : Instr} (hwf : i.wf p = true) : decode p (encode p i) = .ok i := by
  have hshape := encode_shape i p hwf
  cases he : encode p i with
  | port q w =>
    rw [he] at hshape
    exact decode_port_iff.mpr ⟨hshape, instr_of_encode he⟩
  | wire bytes => exact (wireOutcome_of_encode hwf he).decode

/-- Settles O1: a request word has its strobe bit and its operand, and a frame or byte pair is read as its outcome. -/
theorem encodedInstructionDecodesToItself : Obligations.EncodedInstructionDecodesToItself :=
  fun _ _ => decode_encode

/-- Settles O2: the words a port accepts and the three outcomes of the bytes, each encoded again. -/
theorem decodedEncodingEncodesBack : Obligations.DecodedEncodingEncodesBack := by
  refine fun p => ⟨fun q w i h => ?_, fun bytes i h => (decode_wire_iff.mp h).encode⟩
  obtain ⟨hw, rfl⟩ := decode_port_iff.mp h
  exact ⟨q.instr_wf p w, encode_instr ((strobed_iff _ _).mpr hw)⟩

/-- Settles O3: the accepted words of a port, whatever they stand for. -/
theorem requestWordsAreStrobeAndOperands : Obligations.RequestWordsAreStrobeAndOperands := fun _ _ _ =>
  ⟨fun ⟨_, h⟩ => (decode_port_iff.mp h).1, fun hw => ⟨_, decode_port_iff.mpr ⟨hw, rfl⟩⟩⟩

/-! ### Windows of the stream -/

/-- `u16be` as a word: the assembly of two bytes does not overflow (R88, R153). -/
theorem u16be_eq_ofNat (hi lo : Byte) : u16be hi lo = BitVec.ofNat 16 (hi.toNat * 256 + lo.toNat) := by
  rw [← u16be_toNat, BitVec.ofNat_toNat, BitVec.setWidth_eq]

/-- The two bytes of each value among the bytes of all (R84), whatever follows them. -/
theorem valueBytes_getElem? {vs : List Immediate} {k : Nat} {v : Immediate} (rest : List Byte) (h : vs[k]? = some v) :
    (valueBytes vs ++ rest)[2 * k]? = some (hiByte v) ∧ (valueBytes vs ++ rest)[2 * k + 1]? = some (loByte v) := by
  induction vs generalizing k with
  | nil => simp at h
  | cons u us ih =>
    cases k with
    | zero => cases h; exact ⟨rfl, rfl⟩
    | succ k => exact ih h

/-- Two bytes for each channel hold the immediates of `SET_THROTTLE` (R84). -/
theorem decodeValues_channels {p : Params} {payload : List Byte} (h : 2 * p.channels ≤ payload.length) :
    ∃ v1 v2 vs, decodeValues p.channels payload = .ok (v1 :: v2 :: vs) ∧ (v1 :: v2 :: vs).length = p.channels := by
  obtain ⟨vs, hv, hlength⟩ := Machine.decodeValues_ok h
  have := p.channels_range
  match vs, hv, hlength with
  | v1 :: v2 :: vs, hv, hlength => exact ⟨v1, v2, vs, hv, hlength⟩
  | [_], _, hlength => simp at hlength; omega
  | [], _, hlength => simp at hlength; omega

/-- Settles O4: the three outcomes at the window's bytes, with the values of the payload. -/
theorem everyWindowDecodesToOneOutcome : Obligations.EveryWindowDecodesToOneOutcome := by
  intro p b0 b1 len cmd payload hpayload
  refine ⟨?_, ?_, fun hpair => (WireOutcome.resyncByte b0 b1 _ hpair).decode⟩
  · rintro rfl rfl rfl
    obtain ⟨v1, v2, vs, hv, hlength⟩ := decodeValues_channels hpayload.ge
    refine ⟨v1, v2, vs, (WireOutcome.setThrottle len v1 v2 vs payload hv).decode, hlength, fun i hi => ?_⟩
    rw [Params.mem_channelNumbers] at hi
    have hvalue := List.getElem?_eq_getElem (l := v1 :: v2 :: vs) (i := i - 1) (by omega)
    obtain ⟨-, rest, rfl⟩ := decodeValues_inv hv
    obtain ⟨hhi, hlo⟩ := valueBytes_getElem? rest hvalue
    refine ⟨_, _, hhi, hlo, hvalue.trans (congrArg some ?_)⟩
    rw [← u16be_eq_ofNat, u16be_hiByte_loByte]
  · rintro rfl rfl hcmd
    exact (WireOutcome.cmdReserved len cmd payload hcmd).decode

/-- Settles O5: the two outcomes behind a sentinel pair, at the three channels of R7. -/
theorem commandIdentifierAloneSelectsCommand : Obligations.CommandIdentifierAloneSelectsCommand := by
  intro p ⟨_, _, hsentinel, hset, hchannels, _⟩ len cmd payload hpayload
  rw [← hsentinel, ← hset]
  refine ⟨?_, fun hcmd => (WireOutcome.cmdReserved len cmd payload hcmd).decode⟩
  rintro rfl
  obtain ⟨v1, v2, vs, hv, hlength⟩ := decodeValues_channels (p := p) (payload := payload) (by omega)
  obtain ⟨v3, rfl⟩ : ∃ v3, vs = [v3] := List.length_eq_one_iff.mp (by simp at hlength; omega)
  exact ⟨v1, v2, v3, (WireOutcome.setThrottle len v1 v2 [v3] payload hv).decode⟩

/-- Settles O6: the decoder evaluated on the seven encodings. -/
theorem specEncodingsDecodeAsWritten : Obligations.SpecEncodingsDecodeAsWritten :=
  ⟨by decide, by decide, by decide, by decide, by decide, by decide, by decide⟩

end Sys2Proof
end

section
/-! A step: what it executes by the first request, and where it stops (R90, R93, R117, R131, R190, R215). -/

namespace Sys2Proof.Machine

/-! ### The fetch, by the first request -/

theorem fetch_idle {s : State} (h : s.requests = []) : fetch s = .instr .tick s := by
  simp only [fetch, h]

theorem fetch_call_owner {s : State} {q : Port} {w : Word} {rest : List Request}
    (h : s.requests = .call (portOwner q) q w :: rest) :
    fetch s = fetchDecoded (.port q w) { s with requests := rest } := by
  simp only [fetch, h, if_true]

theorem fetch_call_other {s : State} {a : Agent} {q : Port} {w : Word} {rest : List Request}
    (h : s.requests = .call a q w :: rest) (ha : a ≠ portOwner q) : fetch s = .rejected (.ownershipBroken a q) := by
  simp only [fetch, h, if_neg ha.symm]

theorem fetch_frame_wait {s : State} {rest : List Request} (h : s.requests = .frame :: rest)
    (hguard : s.occupancy < s.params.minMsgSize) : fetch s = .wait { s with requests := rest } := by
  simp only [fetch, h, (belowGuard_iff _ _).mpr hguard, if_true]

theorem fetch_frame {s : State} {rest : List Request} (h : s.requests = .frame :: rest)
    (hguard : s.params.minMsgSize ≤ s.occupancy) :
    fetch s = fetchDecoded (.wire s.window) { s with requests := rest } := by
  have hpast : ¬belowGuard s.params s.occupancy = true := fun hb => hguard.not_gt ((belowGuard_iff _ _).mp hb)
  simp only [fetch, h, if_neg hpast]

theorem fetchDecoded_ok {e : Encoded} {s : State} {i : Instr} (h : decode s.params e = .ok i) :
    fetchDecoded e s = .instr i s := by
  simp only [fetchDecoded, h]

theorem fetchDecoded_error {e : Encoded} {s : State} {err : DecodeError} (h : decode s.params e = .error err) :
    fetchDecoded e s = .rejected (.badRequest err) := by
  simp only [fetchDecoded, h]

/-! ### The step, by its fetch -/

theorem step_faulted {s : State} (h : s.faultUnderrun = true) : step s = .fault .executionFaulted := by
  simp only [step, h, if_true]

theorem step_instr {s u : State} {i : Instr} (hf : s.faultUnderrun = false) (h : fetch s = .instr i u) :
    step s = exec i u := by
  simp only [step, hf, h, Bool.false_eq_true, if_false]

theorem step_wait {s u : State} (hf : s.faultUnderrun = false) (h : fetch s = .wait u) :
    step s = .next { u with result := .outcome .wait } := by
  simp only [step, hf, h, finish, Bool.false_eq_true, if_false]

theorem step_rejected {s : State} {r : Refusal} (hf : s.faultUnderrun = false) (h : fetch s = .rejected r) :
    step s = .refused r := by
  simp only [step, hf, h, Bool.false_eq_true, if_false]

/-- A step faults on the fault bit alone: no operation answers a fault. -/
theorem faultUnderrun_of_step_fault {s : State} {f : Fault} (h : step s = .fault f) : s.faultUnderrun = true := by
  rw [← Bool.not_eq_false]
  intro hf
  cases hfetch : fetch s with
  | instr i u =>
    obtain ⟨t, ht⟩ := exec_answers i u
    rw [step_instr hf hfetch, ht] at h
    cases h
  | wait u => rw [step_wait hf hfetch] at h; cases h
  | rejected r => rw [step_rejected hf hfetch] at h; cases h

/-- A step is refused by its fetch alone: no operation answers a refusal. -/
theorem fetch_of_step_refused {s : State} {r : Refusal} (h : step s = .refused r) :
    s.faultUnderrun = false ∧ fetch s = .rejected r := by
  cases hf : s.faultUnderrun with
  | true => rw [step_faulted hf] at h; cases h
  | false =>
    refine ⟨rfl, ?_⟩
    cases hfetch : fetch s with
    | instr i u =>
      obtain ⟨t, ht⟩ := exec_answers i u
      rw [step_instr hf hfetch, ht] at h
      cases h
    | wait u => rw [step_wait hf hfetch] at h; cases h
    | rejected r' => rw [step_rejected hf hfetch] at h; cases h; rfl

/-! ### What is executed, and where a step stops -/

/-- A call of the port's own agent is executed as its word decodes (R93, R117). -/
theorem step_call {s : State} {q : Port} {w : Word} {rest : List Request} {i : Instr} (hf : s.faultUnderrun = false)
    (hr : s.requests = .call (portOwner q) q w :: rest) (hd : decode s.params (.port q w) = .ok i) :
    step s = exec i { s with requests := rest } :=
  step_instr hf ((fetch_call_owner hr).trans (fetchDecoded_ok hd))

/-- Settles O8: the fetch of a tick, of a call and of a frame past the guard. -/
theorem stepExecutesWhatIsFetched : Obligations.StepExecutesWhatIsFetched := by
  refine fun s hf => ⟨fun hr => step_instr hf (fetch_idle hr), fun q w rest i hr hd => step_call hf hr hd,
    fun rest i hr hguard hd => ?_⟩
  exact step_instr hf ((fetch_frame hr hguard).trans (fetchDecoded_ok hd))

/-- Settles O9: the refusals and the WAIT of the fetch, and that nothing else stops a step. -/
theorem stepStopsOnlyByName : Obligations.StepStopsOnlyByName := by
  refine fun s => ⟨step_faulted, fun hf a q w rest hr => ⟨fun ha => ?_, ?_⟩, fun hf rest hr hguard => ?_,
    fun _ => faultUnderrun_of_step_fault, fun r h => ?_⟩
  · exact step_rejected hf (fetch_call_other hr ha)
  · rintro e rfl hd
    exact step_rejected hf ((fetch_call_owner hr).trans (fetchDecoded_error hd))
  · exact step_wait hf (fetch_frame_wait hr hguard)
  · obtain ⟨hf, hfetch⟩ := fetch_of_step_refused h
    exact ⟨hf, fetch_rejected hfetch⟩

/-- Settles O10: the word placed is the first call of its port's owner, and decodes to the instruction it encodes. -/
theorem placedRequestIsExecutedNext : Obligations.PlacedRequestIsExecutedNext := by
  intro i q w s hf he
  have hwf : i.wf s.params = true := instr_of_encode he ▸ q.instr_wf s.params w
  have hd : decode s.params (.port q w) = .ok i := he ▸ decode_encode hwf
  rw [he]
  exact step_call (s := s.place (.port q w)) hf rfl hd

end Sys2Proof.Machine
end

section
/-! `SET_THROTTLE` with its immediates given: each target and each signal (R151, R213). -/

namespace Sys2Proof.Machine

/-! ### The targets -/

/-- The turns from channel `i` on leave the channels before it. -/
theorem applyTargets_get_before {vs : List Immediate} {i k : Nat} {s : State} (hk : k ∈ s.params.channelNumbers)
    (h : k < i) : (applyTargets i vs s).target.get k = s.target.get k := by
  induction vs generalizing i s with
  | nil => rfl
  | cons v vs ih =>
    rw [applyTargets, ih (by rwa [State.setTarget_params]) (by omega), State.setTarget_target, Drive.get_set hk,
      if_neg h.ne]

/-- The turns from channel `i` on give each channel its own value, saturated. -/
theorem applyTargets_get {vs : List Immediate} {i j k : Nat} {v : Immediate} {s : State}
    (hk : k ∈ s.params.channelNumbers) (hj : k = i + j) (h : vs[j]? = some v) :
    (applyTargets i vs s).target.get k = clamp s.params v.toNat := by
  induction vs generalizing i j s with
  | nil => simp at h
  | cons u us ih =>
    rw [applyTargets]
    cases j with
    | zero =>
      cases h
      obtain rfl : k = i := hj
      rw [applyTargets_get_before (by rwa [State.setTarget_params]) (Nat.lt_succ_self k), State.setTarget_target,
        Drive.get_set hk, if_pos rfl]
    | succ j => rw [ih (by rwa [State.setTarget_params]) (by omega) h, State.setTarget_params]

theorem applyTargets_length {vs : List Immediate} {i : Nat} {s : State}
    (h : vs ≠ [] ∨ s.target.values.length = s.params.channels) :
    (applyTargets i vs s).target.values.length = s.params.channels := by
  induction vs generalizing i s with
  | nil => exact h.resolve_left (· rfl)
  | cons v vs ih =>
    rw [applyTargets, ih (.inr ?_), State.setTarget_params]
    rw [State.setTarget_target, State.setTarget_params]
    exact Drive.length_of _ _

/-- As many values as channels make the targets, each saturated (R151, R153). -/
theorem applyTargets_values {vs : List Immediate} {s : State} (h : vs.length = s.params.channels) :
    (applyTargets 1 vs s).target.values = vs.map fun v => clamp s.params v.toNat := by
  have hnonempty : vs ≠ [] := by
    have := s.params.channels_range
    rintro rfl
    simp at h
    omega
  have hlength := applyTargets_length (i := 1) (s := s) (.inl hnonempty)
  refine List.ext_getElem (by simpa [hlength] using h.symm) fun j hj hj' => ?_
  have hjv : j < vs.length := by simpa using hj'
  have hget := applyTargets_get (k := j + 1) (s := s) (by rw [Params.mem_channelNumbers]; omega) (Nat.add_comm j 1)
    (List.getElem?_eq_getElem hjv)
  rw [Drive.get, Nat.add_sub_cancel, List.getD_eq_getElem _ _ hj] at hget
  rw [hget, List.getElem_map]

/-! ### The signals -/

/-- The signal of one channel's value, if it lies outside the scale (R213). -/
def outOfRangeSignal (p : Params) (x : Immediate × Nat) : Option Condition :=
  if outOfRange p x.1.toNat then some (.outOfRangeValue x.2 x.1) else none

theorem outOfRange_iff (p : Params) (v : Nat) : outOfRange p v = true ↔ v < p.throttleLo ∨ p.throttleHi < v := by
  simp [outOfRange]

theorem applyTargets_conditions (i : Nat) (vs : List Immediate) (s : State) :
    (applyTargets i vs s).conditions =
      ((vs.zipIdx i).filterMap (outOfRangeSignal s.params)).reverse ++ s.conditions := by
  induction vs generalizing i s with
  | nil => rfl
  | cons v vs ih =>
    rw [applyTargets, ih, State.setTarget_conditions, State.setTarget_params, List.zipIdx_cons, List.filterMap_cons,
      outOfRangeSignal]
    split <;> simp

/-- With its immediates given, `SET_THROTTLE` reads no shared state: the ring and the schedule stand. -/
theorem sameRing_applyTargets (i : Nat) (vs : List Immediate) (s : State) : SameRing s (applyTargets i vs s) := by
  induction vs generalizing i s with
  | nil => exact SameRing.refl s
  | cons v vs ih => exact ((SameRing.refl s).setTarget i v).trans (ih _ _)

/-- Settles O36: the targets and the signals channel by channel, and what the turns keep. -/
theorem setThrottleWritesClampedTargets : Obligations.SetThrottleWritesClampedTargets := by
  intro len v1 v2 vs s hlength
  have hring := sameRing_applyTargets 1 (v1 :: v2 :: vs) s
  have hi := interprets_applyTargets 1 (v1 :: v2 :: vs) s
  refine ⟨_, rfl, ?_, ?_, rfl, hring.mem, hring.head, hring.tail, hi.current, hi.faultUnderrun, hi.sink, hring.arrivals,
    fun a => congrArg (Memory.read · a) hring.mem⟩
  · simp only [← clamp_eq]
    exact applyTargets_values hlength
  · refine (applyTargets_conditions 1 _ s).trans ?_
    congr 3
    funext ⟨v, i⟩
    simp only [outOfRangeSignal, outOfRange_iff]

end Sys2Proof.Machine
end

section
/-! The targets a frame gives, read byte by byte: DISPATCH under any schedule, and a scan pass whose frame lies within its
snapshot (R88, R132, R139, R151, R193). -/

namespace Sys2Proof.Machine

/-- Every access of a pass finds at least the bytes its snapshot counted (R62). -/
theorem snapshot_le_occupancy {s : State} (hb : s.occupancy ≤ s.params.capacity) {j : Nat} (hj : 1 ≤ j) :
    s.interrupt.occupancy ≤ (State.interrupt^[j] s).occupancy := by
  obtain ⟨n, rfl⟩ := Nat.exists_eq_add_of_le' hj
  rw [Function.iterate_succ_apply]
  exact (grows_interrupts (grows_interrupt hb).bound n).le

theorem State.advanceAccess_pos (s : State) : 1 ≤ s.advanceAccess := by
  unfold State.advanceAccess
  split <;> omega

/-- Settles O24: a frame within the snapshot is within the occupancy at the test, and its value bytes stand at their reads. -/
theorem scanDispatchesLocatedFrame : Obligations.ScanDispatchesLocatedFrame := by
  intro s hb hl hadv hframe
  obtain ⟨t, -, hscan, hresult, htarget, htail, hcurrent, hfault, hsink, hstorage, hquiet, -⟩ :=
    incompleteFrameIsDispatchedFromStorage s hb hl (hadv.trans (snapshot_le_occupancy hb s.advanceAccess_pos))
  refine ⟨t, hscan, hresult, htail, htarget.trans ?_, hcurrent, hfault, hsink, hstorage, hquiet⟩
  split
  case isFalse => rfl
  case isTrue hcmd =>
    have hwhole := hframe hcmd
    unfold Params.frameBytes at hwhole
    refine Drive.of_congr fun i hi => ?_
    obtain ⟨hpos, hle⟩ := (Params.mem_channelNumbers _ i).mp hi
    exact State.racingTarget_snapshot hb (by omega) (by decide) hpos

/-- Settles O33: one access for `cmd`, then two for each channel. -/
theorem dispatchAssemblesBigEndianTargets : Obligations.DispatchAssemblesBigEndianTargets := by
  intro s hcmd
  obtain ⟨hring, htarget⟩ := interpretFrame_throttle (j := 0) (SameRing.refl s) hcmd
  rw [Nat.zero_add] at hring htarget
  have hi := interprets_interpretFrame s
  have hstorage : SameStorage (State.interrupt^[1 + 2 * s.params.channels] s) { interpretFrame s with result := .none } :=
    ⟨hring.mem, hring.head⟩
  refine ⟨_, rfl, ?_, fun i hmem => ?_, rfl, hi.tail, hi.current, hi.faultUnderrun, hi.sink, hstorage, hstorage.quiet⟩
  · show (interpretFrame s).target.values.length = _
    rw [htarget, Drive.length_of]
  · show (interpretFrame s).target.get i = _
    rw [htarget, Drive.get_of hmem, State.racingTarget, clamp_eq, u16be_toNat, Nat.add_sub_cancel_left, Nat.add_comm 1]

end Sys2Proof.Machine
end

section
/-! A full buffer, an empty one and a residual SENTINEL: PUSH that overflows, RESYNC_BYTE on its own, and the tick that no
schedule saves from AdvanceUnderrun (R110, R113, R133, R211, R212, R255). -/

namespace Sys2Proof.Machine

/-- Settles O29: the occupancy at the test of the advance is at most `C`, so `2 + SENTINEL` is past the data there. -/
theorem residualSentinelByteFaultsTick : Obligations.ResidualSentinelByteFaultsTick := by
  intro s hcap hb hguard h0 h1 h2
  have hl : s.interrupt.locates = true := by
    rw [State.locates_iff, State.interrupt_params]
    exact ⟨hguard, h0, h1⟩
  have hpast : (State.interrupt^[s.advanceAccess] s).occupancy < 2 + (s.interrupt.byteAt 2).toNat := by
    rw [h2]
    exact (grows_interrupts hb _).le_capacity.trans_lt hcap
  obtain ⟨t, -, htick, hfault, hresult, -, hcurrent, hsink, -⟩ := scanPastDataTakesUnderrun s hb hl hpast
  exact ⟨t, htick, hfault, hresult, hcurrent, hsink⟩

theorem exec_push_full {s : State} (h : s.occupancy = s.params.capacity) (b : Byte) :
    exec (.push b) s = .next { s.signal (.bufferOverflow b) with result := .overflow } := by
  rw [exec_push, enqueue_full h]

/-- Settles O12: the signal records its condition and writes nothing else. -/
theorem pushIntoFullBufferChangesNothing : Obligations.PushIntoFullBufferChangesNothing := by
  intro b s h
  exact ⟨_, exec_push_full h b, rfl, ⟨rfl, rfl, rfl, rfl, rfl, rfl⟩, rfl, fun _ => rfl, rfl, rfl⟩

/-- A resynchronization with nothing to consume raises (R113, R133). -/
theorem resync_underrun {s : State} (h : s.interrupt.occupancy = 0) (b0 b1 : Byte) :
    resync b0 b1 s = ((s.signal (.frameMisalignment b0 b1)).interrupt.raiseUnderrun 1, .fault) := by
  have hring := ((SameRing.refl s).signal (.frameMisalignment b0 b1)).interrupt
  have hempty : (s.signal (.frameMisalignment b0 b1)).interrupt.occupancy < (1 : Count).toNat := by
    rw [hring.occupancy, h]
    decide
  unfold resync
  rw [consume_underrun hempty]
  rfl

theorem exec_resyncByte {s u : State} {b0 b1 : Byte} {r : Result} (h : resync b0 b1 s = (u, r)) :
    exec (.resyncByte b0 b1) s = .next { u with result := r } := by
  simp only [exec, execResyncByte, h, finish]

/-- Settles O32: the signal leaves the ring as it was, so on both sides the interrupts before the accesses that follow do to
it what they would have done without the signal. -/
theorem resyncByteConsumesOneByte : Obligations.ResyncByteConsumesOneByte := by
  intro b0 b1 s
  have hsignal := interprets_signal s (.frameMisalignment b0 b1)
  have hring := (SameRing.refl s).signal (.frameMisalignment b0 b1)
  constructor
  · intro h
    have hi := (hsignal.trans (interprets_interrupt _)).trans (interprets_interrupt _)
    have hstorage : SameStorage (State.interrupt^[2] s)
        { (s.signal (.frameMisalignment b0 b1)).interrupt.interrupt.moveTail 1 with result := .outcome .resync } :=
      ⟨hring.interrupt.interrupt.mem, hring.interrupt.interrupt.head⟩
    refine ⟨_, exec_resyncByte (resync_eq h b0 b1), rfl, ?_, ?_, ?_, hi.current, hi.faultUnderrun, hi.sink, hstorage,
      hstorage.quiet⟩
    · exact congrArg₂ (fun c p => (c + 1) % Params.counterRange p) hi.tail hi.params
    · exact (State.interrupt_consumerConditions _).trans (State.interrupt_consumerConditions _)
    · exact (State.interrupt_target _).trans (State.interrupt_target _)
  · intro h
    have hi := hsignal.trans (interprets_interrupt _)
    have hstorage : SameStorage (State.interrupt^[1] s)
        { (s.signal (.frameMisalignment b0 b1)).interrupt.raiseUnderrun 1 with result := .fault } :=
      ⟨hring.interrupt.mem, hring.interrupt.head⟩
    refine ⟨_, exec_resyncByte (resync_underrun h b0 b1), rfl, rfl, ?_, State.interrupt_target _, hi.current, hi.sink,
      hstorage, hstorage.quiet⟩
    exact (State.raiseUnderrun_consumerConditions _ 1).trans (by rw [State.interrupt_consumerConditions]; rfl)

end Sys2Proof.Machine
end

section
/-! An aligned stream stays aligned under a tick, which takes no fault (R136, R256). -/

namespace Sys2Proof.Machine

/-! ### Clean frames and aligned streams -/

/-- A clean frame is the sentinel pair, a length byte and as many bytes as it says; its last byte, which the advance by
`2 + len` leaves (R87), is not SENTINEL. -/
theorem CleanFrame.shape {p : Params} {f : List Byte} (h : CleanFrame p f) :
    ∃ len body, f = p.sentinel :: p.sentinel :: len :: body ∧ body.length = len.toNat ∧
      ∃ x, f.drop (2 + len.toNat) = [x] ∧ x ≠ p.sentinel := by
  obtain ⟨cmd, data, hdata, rfl, hlast⟩ := h
  have hlen : (BitVec.ofNat 8 (data.length + 1) : Byte).toNat = data.length + 1 := by
    rw [BitVec.toNat_ofNat]
    omega
  refine ⟨_, cmd :: data, rfl, hlen.symm, ?_⟩
  have hdrop : (frameBytes p cmd data).drop (2 + (data.length + 1)) = (cmd :: data).drop data.length := by
    rw [Nat.add_comm 2]
    rfl
  have hone : ((cmd :: data).drop data.length).length = 1 := by simp
  obtain ⟨x, hx⟩ := List.length_eq_one_iff.mp hone
  refine ⟨x, by rw [hlen, hdrop, hx], ?_⟩
  rintro rfl
  refine hlast ?_
  rw [← List.take_append_drop (2 + (data.length + 1)) (frameBytes p cmd data), hdrop, hx, List.getLast?_concat]

theorem aligned_flatten {p : Params} {frames : List (List Byte)} (h : ∀ f ∈ frames, CleanFrame p f) :
    Aligned p frames.flatten := ⟨[], frames, rfl, .inl rfl, h⟩

/-- Where an aligned stream stands: at its end, on a residual byte, or on a frame. -/
theorem Aligned.cases {p : Params} {bytes : List Byte} (h : Aligned p bytes) :
    ∃ frames : List (List Byte), (∀ f ∈ frames, CleanFrame p f) ∧
      (bytes = [] ∨ (∃ x, bytes = x :: frames.flatten ∧ x ≠ p.sentinel) ∨
        ∃ f, bytes = f ++ frames.flatten ∧ CleanFrame p f) := by
  obtain ⟨residual, frames, rfl, rfl | ⟨x, rfl, hx⟩, hframes⟩ := h
  · cases frames with
    | nil => exact ⟨[], hframes, .inl rfl⟩
    | cons f frames =>
      obtain ⟨hf, hframes⟩ := List.forall_mem_cons.mp hframes
      exact ⟨frames, hframes, .inr (.inr ⟨f, rfl, hf⟩)⟩
  · exact ⟨frames, hframes, .inr (.inl ⟨x, rfl, hx⟩)⟩

/-- Where the stream stands on no sentinel pair, one byte dropped keeps it aligned: the residual byte (R133). -/
theorem Aligned.drop_one {p : Params} {bytes : List Byte} (h : Aligned p bytes)
    (hn : ¬(bytes[0]? = some p.sentinel ∧ bytes[1]? = some p.sentinel)) : Aligned p (bytes.drop 1) := by
  obtain ⟨frames, hframes, rfl | ⟨x, rfl, -⟩ | ⟨f, rfl, hf⟩⟩ := h.cases
  · exact h
  · exact aligned_flatten hframes
  · obtain ⟨len, body, rfl, -⟩ := hf.shape
    exact absurd ⟨rfl, rfl⟩ hn

/-- Where the stream stands on SENTINEL, the advance of the frame there keeps it aligned: the frame's last byte becomes the
residual one (R87, R136). -/
theorem Aligned.drop_frame {p : Params} {bytes : List Byte} {len : Byte} (h : Aligned p bytes)
    (h0 : bytes[0]? = some p.sentinel) (h2 : bytes[2]? = some len) : Aligned p (bytes.drop (2 + len.toNat)) := by
  obtain ⟨frames, hframes, rfl | ⟨x, rfl, hx⟩ | ⟨f, rfl, hf⟩⟩ := h.cases
  · cases h0
  · exact absurd (Option.some.inj h0) hx
  · obtain ⟨len', body, rfl, hbody, x, hdrop, hx⟩ := hf.shape
    obtain rfl : len' = len := Option.some.inj h2
    rw [List.drop_append_of_le_length (by simp only [List.length_cons]; omega), hdrop]
    exact ⟨[x], frames, rfl, .inr ⟨x, rfl, hx⟩, hframes⟩

/-! ### The stream under the accesses of a pass -/

theorem State.occupancy_le_of_stream {s : State} (h : s.stream.length ≤ s.params.capacity) :
    s.occupancy ≤ s.params.capacity := by
  rw [State.stream_length] at h
  omega

/-- Interrupts move bytes from the schedule into the buffer, which holds them all (P2). -/
theorem State.stream_interrupts {s : State} (h : s.stream.length ≤ s.params.capacity) (j : Nat) :
    (State.interrupt^[j] s).stream = s.stream := by
  induction j with
  | zero => rfl
  | succ j ih =>
    rw [Function.iterate_succ_apply', State.stream_interrupt, ih]
    rwa [← State.stream_length, ih, State.interrupts_params]

theorem Interprets.stream {s t : State} (h : Interprets s t) (hs : s.stream.length ≤ s.params.capacity) :
    t.stream = s.stream := by
  obtain ⟨j, hj⟩ := h.ring
  rw [hj.stream, State.stream_interrupts hs]

theorem interprets_interrupt_interrupt (s : State) : Interprets s s.interrupt.interrupt :=
  (interprets_interrupt s).trans (interprets_interrupt _)

/-- What an advance leaves of the stream, whatever arrived since `s`, as long as the buffer holds it all. -/
theorem Interprets.stream_moveTail {s t : State} (h : Interprets s t) (hs : s.stream.length ≤ s.params.capacity) {n : Count}
    (hn : n.toNat ≤ s.occupancy) : (t.moveTail n).stream = s.stream.drop n.toNat := by
  rw [State.stream_moveTail (hn.trans (h.grows (State.occupancy_le_of_stream hs)).le), h.stream hs]

/-- A guard that has passed counts the four bytes of a frame's header at least (R7, R131). -/
theorem lt_of_minMsgSize_le {p : Params} {k n : Nat} (hk : k < 4) (h : p.minMsgSize ≤ n) : k < n :=
  hk.trans_le (p.minMsgSize_range.1.trans h)

/-- The first bytes of the stream are those a pass past its guard finds at the tail (R131, R132). -/
theorem State.stream_getElem?_guarded {s : State} (h : s.params.minMsgSize ≤ s.occupancy) {k : Nat} (hk : k < 4) :
    s.stream[k]? = some (s.byteAt k) :=
  State.stream_getElem? (lt_of_minMsgSize_le hk h)

/-- What a scan pass makes of an aligned stream, without raising: nothing, the residual byte dropped, or the frame up to its
last byte (R131 to R133, R136). -/
theorem scanPass_aligned {s : State} (ha : Aligned s.params s.stream) (hfit : s.stream.length ≤ s.params.capacity)
    (hwhole : s.interrupt.locates = true → 3 + (s.interrupt.byteAt 2).toNat ≤ s.interrupt.occupancy) :
    (scanPass s).2 ≠ .fault ∧ ∃ n, (scanPass s).1.stream = s.stream.drop n ∧ Aligned s.params (s.stream.drop n) := by
  have hb := State.occupancy_le_of_stream hfit
  have hstream := (interprets_interrupt s).stream hfit
  rw [← hstream, ← s.interrupt_params] at ha hfit ⊢
  rcases Nat.lt_or_ge s.interrupt.occupancy s.params.minMsgSize with hwait | hguard
  · rw [scanPass_wait hwait]
    exact ⟨by simp, 0, rfl, ha⟩
  have hbyte := fun k => State.stream_getElem?_guarded (s := s.interrupt) (by rwa [s.interrupt_params]) (k := k)
  have hreads := interprets_interrupt_interrupt s.interrupt
  by_cases hl : s.interrupt.locates = true
  · have hadv := hwhole hl
    have h0 := ((State.locates_iff _).mp hl).2.1
    have hdispatch := (hreads.trans (interprets_frameSeen _)).trans (interprets_interrupt_interrupt _)
    rw [scanPass_dispatched hb hl (by omega)]
    refine ⟨by simp, 2 + (s.interrupt.byteAt 2).toNat, ?_, ha.drop_frame ?_ (hbyte 2 (by decide))⟩
    · rw [hdispatch.stream_moveTail hfit (by rw [frameAdvance_toNat]; omega), frameAdvance_toNat]
    · rw [hbyte 0 (by decide), h0]
  · have hpair : ¬(s.interrupt.byteAt 0 = s.params.sentinel ∧ s.interrupt.byteAt 1 = s.params.sentinel) := fun hp =>
      hl ((State.locates_iff _).mpr (by rw [s.interrupt_params]; exact ⟨hguard, hp⟩))
    have hresync := fun c => (hreads.trans (interprets_signal _ c)).trans (interprets_interrupt_interrupt _)
    rw [scanPass_resync hb hguard hpair]
    refine ⟨by simp, 1, (hresync _).stream_moveTail hfit (lt_of_minMsgSize_le (by decide) hguard), ha.drop_one ?_⟩
    rw [hbyte 0 (by decide), hbyte 1 (by decide), s.interrupt_params, Option.some_inj, Option.some_inj]
    exact hpair

/-- Settles O31: the pass drops from the stream what keeps it aligned, and the ramp and the sink write leave the ring. -/
theorem alignedStreamTicksWithoutFault : Obligations.AlignedStreamTicksWithoutFault := by
  intro s hf ha hfit hwhole
  have hpass := scans_scanPass s
  obtain ⟨hresult, n, hstream, haligned⟩ := scanPass_aligned ha hfit hwhole
  refine ⟨_, exec_tick_next rfl hresult, hpass.fault.trans (by simp [hf, hresult]), hresult, ?_, ?_⟩
  · show Aligned _ (scanPass s).1.stream
    rwa [hstream]
  · show (scanPass s).1.stream.length ≤ _
    rw [hstream, List.length_drop]
    omega

end Sys2Proof.Machine
end

section
/-! The scan pass that waits and the one that resynchronizes, the ticks around them, and hunting (R131, R133, R134, R137, R139,
R140, R190, R193, R212). -/

namespace Sys2Proof.Machine

/-! ### Below the guard -/

/-- Settles O22: the pass ends with its snapshot, which is one interrupt. -/
theorem scanBelowGuardWaits : Obligations.ScanBelowGuardWaits := by
  intro s h
  refine ⟨_, exec_scan (scanPass_wait h), rfl, ⟨rfl, rfl, rfl, rfl, rfl, rfl⟩, s.interrupt_tail, s.interrupt_target,
    s.interrupt_current, s.interrupt_faultUnderrun, s.interrupt_sink, s.interrupt_consumerConditions, fun hq => ?_⟩
  rw [State.interrupt_of_quiet hq]
  exact ⟨⟨rfl, rfl, rfl, rfl, rfl, rfl⟩, fun _ => rfl⟩

/-- Settles O44: such a tick is the ramp and the sink write. -/
theorem waitingTickOnlyActuates : Obligations.WaitingTickOnlyActuates := by
  intro s hq h
  exact ⟨_, exec_tick_wait hq h, rfl, rfl, rfl, rfl, rfl, rfl, rfl, rfl, rfl, fun _ => rfl⟩

/-! ### Without a sentinel pair -/

/-- Past the guard and without the pair, a pass is the resynchronization on the two bytes at the tail, after the three accesses
that read the occupancy and them (R133, R193). -/
theorem exec_scan_eq_resyncByte {s : State} (hb : s.occupancy ≤ s.params.capacity)
    (hguard : s.params.minMsgSize ≤ s.interrupt.occupancy)
    (hn : ¬(s.interrupt.byteAt 0 = s.params.sentinel ∧ s.interrupt.byteAt 1 = s.params.sentinel)) :
    1 ≤ (State.interrupt^[3] s).interrupt.occupancy ∧
      exec .scan s = exec (.resyncByte (s.interrupt.byteAt 0) (s.interrupt.byteAt 1)) (State.interrupt^[3] s) := by
  have hone : 0 < (State.interrupt^[4] s).occupancy :=
    lt_of_minMsgSize_le (by decide) (hguard.trans (snapshot_le_occupancy hb (by decide)))
  have hpass := (scanPass_resync hb hguard hn).trans (resync_eq (s := State.interrupt^[3] s) hone _ _).symm
  exact ⟨hone, (exec_scan hpass).trans (exec_resyncByte rfl).symm⟩

/-- Settles O23: what the resynchronization does by itself, three accesses later. -/
theorem scanWithoutSentinelPairDropsOneByte : Obligations.ScanWithoutSentinelPairDropsOneByte := by
  intro s hb hguard hn
  have hreads := (interprets_interrupt_interrupt s).trans (interprets_interrupt _)
  obtain ⟨hone, hscan⟩ := exec_scan_eq_resyncByte hb hguard hn
  obtain ⟨t, ht, hresult, htail, hconditions, htarget, hcurrent, hfault, hsink, hstorage, -⟩ :=
    (resyncByteConsumesOneByte _ _ _).1 hone
  rw [← Function.iterate_add_apply] at hstorage
  refine ⟨t, hscan.trans ht, hresult, ?_, hconditions.trans ?_, htarget.trans ?_, hcurrent.trans hreads.current,
    hfault.trans hreads.faultUnderrun, hsink.trans hreads.sink, hstorage, hstorage.quiet⟩
  · rw [htail, State.interrupts_tail, State.interrupts_params]
  · exact congrArg (_ :: ·) (by simp)
  · simp

/-! ### Hunting -/

/-- A tick that resynchronizes, with no interrupt scheduled (R133, R190). -/
theorem exec_tick_resync {s : State} (hq : s.arrivals = []) (hb : s.occupancy ≤ s.params.capacity)
    (hguard : s.params.minMsgSize ≤ s.occupancy)
    (hn : ¬(s.byteAt 0 = s.params.sentinel ∧ s.byteAt 1 = s.params.sentinel)) :
    exec .tick s = .next { ((s.signal (.frameMisalignment (s.byteAt 0) (s.byteAt 1))).moveTail 1).ramp.emit with
      result := .outcome .resync } := by
  have hquiet := State.interrupt_of_quiet hq
  have hpass := scanPass_resync (s := s) hb (by rwa [hquiet]) (by rwa [hquiet])
  have hsignal : ∀ c, (s.signal c).interrupt = s.signal c := fun _ => State.interrupt_of_quiet hq
  simp only [hquiet, hsignal] at hpass
  exact exec_tick_next hpass (by simp)

/-- `t` is `s` after `g` ticks that each consumed one byte and dispatched nothing. -/
structure Hunted (g : Nat) (s t : State) : Prop where
  tail : t.tail = if g = 0 then s.tail else (s.tail + g) % s.params.counterRange
  head : t.head = s.head
  mem : t.mem = s.mem
  target : t.target = s.target
  faultUnderrun : t.faultUnderrun = s.faultUnderrun
  sink_length : t.sink.length = s.sink.length + g
  byteAt : ∀ k, t.byteAt k = s.byteAt (g + k)

theorem Hunted.succ {g : Nat} {s t u : State} (h : Hunted 1 s t) (hp : t.params = s.params) (hu : Hunted g t u) :
    Hunted (g + 1) s u where
  tail := by
    have htail := h.tail
    rw [hu.tail, hp, if_neg (Nat.succ_ne_zero g), htail, if_neg one_ne_zero]
    split
    · subst g; rfl
    · rw [Nat.mod_add_mod, Nat.add_assoc, Nat.add_comm 1]
  head := hu.head.trans h.head
  mem := hu.mem.trans h.mem
  target := hu.target.trans h.target
  faultUnderrun := hu.faultUnderrun.trans h.faultUnderrun
  sink_length := by rw [hu.sink_length, h.sink_length]; omega
  byteAt k := by rw [hu.byteAt, h.byteAt]; congr 1; omega

/-- One tick of a hunt (R134, R137). -/
theorem exec_tick_hunted {s : State} (hq : s.arrivals = []) (hb : s.occupancy ≤ s.params.capacity)
    (hguard : s.params.minMsgSize ≤ s.occupancy)
    (hn : ¬(s.byteAt 0 = s.params.sentinel ∧ s.byteAt 1 = s.params.sentinel)) :
    ∃ t, exec .tick s = .next t ∧ Hunted 1 s t ∧ t.params = s.params ∧ t.arrivals = [] ∧
      t.occupancy = s.occupancy - 1 := by
  have hone : (1 : Count).toNat ≤ s.occupancy := lt_of_minMsgSize_le (by decide) hguard
  refine ⟨_, exec_tick_resync hq hb hguard hn, ⟨?_, rfl, rfl, rfl, rfl, rfl, ?_⟩, rfl, hq, ?_⟩
  · exact (if_neg one_ne_zero).symm
  · exact (s.signal _).byteAt_moveTail 1
  · exact State.occupancy_moveTail (s := s.signal _) hone

theorem execEach_ticks_hunted {g : Nat} {s : State} (hq : s.arrivals = []) (hb : s.occupancy ≤ s.params.capacity)
    (hguard : g + s.params.minMsgSize ≤ s.occupancy + 1)
    (hn : ∀ k < g, ¬(s.byteAt k = s.params.sentinel ∧ s.byteAt (k + 1) = s.params.sentinel)) :
    ∃ t, execEach (List.replicate g .tick) s = .next t ∧ Hunted g s t := by
  induction g generalizing s with
  | zero => exact ⟨s, rfl, rfl, rfl, rfl, rfl, rfl, rfl, fun k => by rw [Nat.zero_add]⟩
  | succ g ih =>
    obtain ⟨t, ht, htick, hparams, hquiet, hocc⟩ := exec_tick_hunted hq hb (by omega) (hn 0 g.succ_pos)
    obtain ⟨u, hu, hunted⟩ := ih hquiet (by rw [hparams]; omega) (by rw [hparams]; omega) fun k hk => by
      rw [htick.byteAt, htick.byteAt, hparams, Nat.add_comm 1, Nat.add_comm 1]
      exact hn (k + 1) (by omega)
    exact ⟨u, by simp only [List.replicate_succ, execEach, ht, hu], htick.succ hparams hunted⟩

/-- Settles O25: by induction on the number of bytes, one tick each. -/
theorem huntingTakesOneTickPerByte : Obligations.HuntingTakesOneTickPerByte := by
  intro g s hq hb hguard hn
  obtain ⟨t, ht, h⟩ := execEach_ticks_hunted hq hb hguard hn
  exact ⟨t, ht, fun hg => h.tail.trans (if_neg hg.ne'), h.head, h.mem, h.target, h.faultUnderrun, h.sink_length, h.byteAt⟩

end Sys2Proof.Machine
end

section
/-! A HOST that stays silent: the CONSUMER ticks for ever and finds nothing to scan (R131, R190, R196, decision D14). -/

namespace Sys2Proof.Machine

/-- What a tick of the silent schedule makes of a state with too little to scan. -/
def State.silentTick (s : State) : State :=
  { ({ s with requests := [], arrivals := [] } : State).ramp.emit with result := .outcome .wait }

theorem step_turn_silent {s : State} (hf : s.faultUnderrun = false) (h : s.occupancy < s.params.minMsgSize) :
    step (s.turn (.tick [])) = .next s.silentTick :=
  (step_turn_tick hf []).trans (exec_tick_wait rfl h)

/-- Silent ticks write neither the ring nor the fault bit. -/
theorem State.silentTicks_ring (s : State) (n : Nat) :
    (State.silentTick^[n] s).faultUnderrun = s.faultUnderrun ∧ (State.silentTick^[n] s).occupancy = s.occupancy ∧
      (State.silentTick^[n] s).params = s.params := by
  induction n with
  | zero => exact ⟨rfl, rfl, rfl⟩
  | succ n ih => rw [Function.iterate_succ_apply']; exact ih

/-- Settles O56: at start-up nothing is unread, and no silent tick changes that. -/
theorem hostMayStaySilent : Obligations.HostMayStaySilent := by
  intro p
  refine ⟨fun _ => .tick [], fun n => State.silentTick^[n] (State.startup p), fun n => ⟨n, le_rfl, rfl⟩, fun _ => rfl, rfl,
    fun n => ?_, fun n => ?_⟩
  · obtain ⟨hf, hocc, hparams⟩ := (State.startup p).silentTicks_ring n
    refine Eq.trans ?_ (congrArg _ (Function.iterate_succ_apply' State.silentTick n _).symm)
    refine step_turn_silent hf ?_
    rw [hocc, hparams, State.startup_occupancy]
    exact lt_of_minMsgSize_le (by decide) le_rfl
  · exact congrArg State.result (Function.iterate_succ_apply' State.silentTick n _)

end Sys2Proof.Machine
end

section
/-! The clamp, a command that changes nothing, and one scan pass over a frame of R155 (R150 to R153, R155, R214). -/

namespace Sys2Proof.Machine

/-! ### The clamp -/

theorem clamp_mem_range (p : Params) (v : Nat) : p.throttleLo ≤ clamp p v ∧ clamp p v ≤ p.throttleHi :=
  (inScale_iff p _).mp (inScale_clamp p v)

theorem clamp_eq_self {p : Params} {v : Nat} (hlo : p.throttleLo ≤ v) (hhi : v ≤ p.throttleHi) : clamp p v = v := by
  rw [clamp_eq, min_eq_left hhi, max_eq_right hlo]

theorem clamp_mono (p : Params) : Monotone (clamp p) := fun v w h => by
  rw [clamp_eq, clamp_eq]
  exact max_le_max_left _ (min_le_min_right _ h)

/-- The clamp between the bounds of R7 (R153). -/
theorem clamp_asGiven {p : Params} (h : p.AsGiven) (v : Nat) : clamp p v = max 3000 (min v 6000) := by
  obtain ⟨-, -, -, -, -, -, hlo, hhi, -⟩ := h
  rw [clamp_eq, hlo, hhi]

/-- Settles O38: what is clamped lies within the range, and within it the clamp is the identity. -/
theorem clampSaturatesUnsigned : Obligations.ClampSaturatesUnsigned := by
  refine ⟨fun p v => ?idempotent, fun p v w h => clamp_mono p h, fun p v => clamp_eq_self, fun p v => ?range,
    fun p h => ?asGiven, u16be_toNat⟩
  case idempotent =>
    obtain ⟨hlo, hhi⟩ := clamp_mem_range p v
    exact clamp_eq_self hlo hhi
  case range =>
    obtain ⟨hlo, hhi⟩ := clamp_mem_range p v
    obtain ⟨-, -, hwidth⟩ := p.throttle_range
    exact ⟨hlo, hhi, hhi.trans_lt hwidth⟩
  case asGiven =>
    simp only [clamp_asGiven h]
    exact ⟨by omega, by omega, by omega, by decide⟩

/-! ### Commands that change nothing -/

theorem State.sameBlock_signal (s : State) (c : Condition) : SameBlock s (s.signal c) := ⟨rfl, rfl, rfl, rfl, rfl, rfl⟩

/-- Settles O37: the meaning is the signal, which records its condition and writes nothing else. -/
theorem reservedCommandChangesNoState : Obligations.ReservedCommandChangesNoState := by
  intro len cmd s
  exact ⟨_, rfl, s.sameBlock_signal (.unknownCommand cmd), rfl, rfl, rfl, rfl, fun _ => rfl⟩

/-- `DISPATCH` of a command other than CMD_SET_THROTTLE is the signal after the one access that reads it (R150, R152). -/
theorem exec_dispatch_reserved {s : State} (h : s.interrupt.byteAt 3 ≠ s.params.cmdSetThrottle) :
    exec .dispatch s =
      .next { s.interrupt.signal (.unknownCommand (s.interrupt.byteAt 3)) with result := .none } := by
  obtain ⟨hframe, -⟩ := interpretFrame_reserved (j := 0) (SameRing.refl s) h
  show execDispatch s = _
  rw [execDispatch, hframe]
  rfl

/-- Settles O35: the one access is an interrupt, which with none scheduled does nothing. -/
theorem dispatchIgnoresReservedCommand : Obligations.DispatchIgnoresReservedCommand := by
  intro s h
  have hblock := s.interrupt.sameBlock_signal (.unknownCommand (s.interrupt.byteAt 3))
  refine ⟨_, exec_dispatch_reserved h, hblock, rfl, congrArg (_ :: ·) s.interrupt_consumerConditions, s.interrupt_tail,
    s.interrupt_target, s.interrupt_current, s.interrupt_faultUnderrun, s.interrupt_sink, fun hq => ?_⟩
  rw [State.interrupt_of_quiet hq] at hblock ⊢
  exact ⟨hblock, fun _ => rfl⟩

/-! ### The frame of R155 -/

/-- A byte among the first unread ones is unread, at its place as an offset from the tail (R15, R52). -/
theorem State.byteAt_of_unread_take {s : State} {n k : Nat} {bs : List Byte} {b : Byte} (h : s.unread.take n = bs)
    (hk : bs[k]? = some b) : k < s.occupancy ∧ s.byteAt k = b := by
  rw [← h, List.getElem?_take] at hk
  obtain ⟨-, hb⟩ := Option.ite_none_right_eq_some.mp hk
  obtain ⟨hlt, -⟩ := List.getElem?_eq_some_iff.mp hb
  rw [State.unread_length] at hlt
  exact ⟨hlt, Option.some.inj ((s.unread_getElem? hlt).symm.trans hb)⟩

/-- A value for each of three channels. -/
theorem Drive.of_three {p : Params} (h : p.channels = 3) (f : Nat → Nat) : Drive.of p f = ⟨[f 1, f 2, f 3]⟩ := by
  rw [Drive.of, Params.channelNumbers, h]
  rfl

/-- The target of a channel whose two bytes are known, between the bounds of R7. -/
theorem State.frameTarget_asGiven {s : State} (h : s.params.AsGiven) {i : Nat} {hi lo : Byte}
    (hhi : s.byteAt (2 + 2 * i) = hi) (hlo : s.byteAt (3 + 2 * i) = lo) :
    s.frameTarget i = max 3000 (min (hi.toNat * 256 + lo.toNat) 6000) := by
  rw [State.frameTarget, hhi, hlo, clamp_asGiven h, u16be_toNat]

/-- Settles O26: the ten bytes are a located frame of length 7, whole at the snapshot. -/
theorem throttleFrameSetsTargetsInOnePass : Obligations.ThrottleFrameSetsTargetsInOnePass := by
  intro s hi1 lo1 hi2 lo2 hi3 lo3 hgiven hb hguard hunread
  have hbyte {k : Nat} {b : Byte} := State.byteAt_of_unread_take (k := k) (b := b) hunread
  have hvalue (i : Nat) {hi lo : Byte} (hhi : _[2 + 2 * i]? = some hi) (hlo : _[3 + 2 * i]? = some lo) :=
    State.frameTarget_asGiven (s := s.interrupt) (by rwa [State.interrupt_params]) (hbyte hhi).2 (hbyte hlo).2
  obtain ⟨hcap, -, hsentinel, hcmd, hchannels, -⟩ := hgiven
  have hten : 10 ≤ s.interrupt.occupancy := (hbyte (k := 9) rfl).1
  have hlen : (s.interrupt.byteAt 2).toNat = 7 := by
    rw [(hbyte (k := 2) rfl).2]
    rfl
  have hthrottle : s.interrupt.byteAt 3 = s.params.cmdSetThrottle := (hbyte rfl).2.trans hcmd.symm
  have hlocates : s.interrupt.locates = true := by
    rw [State.locates_iff, State.interrupt_params, hsentinel]
    exact ⟨hguard, (hbyte rfl).2, (hbyte rfl).2⟩
  have hframe : s.params.frameBytes ≤ s.interrupt.occupancy := by rwa [Params.frameBytes, hchannels]
  obtain ⟨t, hscan, hresult, htail, htarget, -⟩ :=
    scanDispatchesLocatedFrame s (hb.trans_eq hcap.symm) hlocates (by omega) fun _ => hframe
  refine ⟨t, hscan, hresult, by rw [htail, hlen], ?_⟩
  rw [htarget, if_pos hthrottle, Drive.of_three hchannels, hvalue 1 rfl rfl, hvalue 2 rfl rfl, hvalue 3 rfl rfl]

end Sys2Proof.Machine
end

section
/-! What RAMP_STEP and SINK_WRITE answer, and how many steps a channel takes to its target (R170 to R173). -/

namespace Sys2Proof.Machine

theorem exec_rampStep (s : State) : exec .rampStep s = .next { s.ramp with result := .none } := rfl

theorem exec_sinkWrite (s : State) : exec .sinkWrite s = .next { s.emit with result := .none } := rfl

/-- Settles O39: the ramp writes `current` only, each channel by its bounded step. -/
theorem rampStepMovesTowardTarget : Obligations.RampStepMovesTowardTarget := by
  intro s
  refine ⟨_, exec_rampStep s, Drive.length_of _ _, fun i hi => ?_, rfl, rfl, rfl, rfl, rfl, rfl, rfl, rfl, rfl, fun _ => rfl⟩
  exact (s.ramp_current_get hi).trans (rampValue_eq _ _ _)

/-- Settles O42: the sink write adds one event and writes nothing else. -/
theorem sinkWriteEmitsCurrentValues : Obligations.SinkWriteEmitsCurrentValues := fun s =>
  ⟨_, exec_sinkWrite s, rfl, ⟨rfl, rfl, rfl, rfl, rfl, rfl⟩, rfl, rfl, rfl, fun _ => rfl⟩

/-- `k` steps of DELTA toward a fixed target are one bounded step of `DELTA*k` (R173). -/
theorem rampValue_iterate (p : Params) (c g k : Nat) :
    (rampValue p · g)^[k] c =
      if c + p.delta * k < g then c + p.delta * k else if g + p.delta * k < c then c - p.delta * k else g := by
  induction k with
  | zero =>
    rw [Function.iterate_zero_apply]
    split_ifs <;> omega
  | succ k ih =>
    rw [Function.iterate_succ_apply', ih, rampValue_eq, Nat.mul_succ]
    split_ifs <;> omega

/-- A channel is on its target after as many steps as its distance in multiples of DELTA. -/
theorem rampValue_iterate_of_le {p : Params} {c g k : Nat} (h : (c - g) + (g - c) ≤ p.delta * k) :
    (rampValue p · g)^[k] c = g := by
  rw [rampValue_iterate, if_neg (by omega), if_neg (by omega)]

/-- RAMP_STEP again and again: the target stands, and each channel takes its bounded steps toward it. -/
theorem execEach_rampSteps (k : Nat) (s : State) :
    ∃ t, execEach (List.replicate k .rampStep) s = .next t ∧ t.target = s.target ∧ ∀ i ∈ s.params.channelNumbers,
      t.current.get i = (rampValue s.params · (s.target.get i))^[k] (s.current.get i) := by
  induction k generalizing s with
  | zero => exact ⟨s, rfl, rfl, fun _ _ => rfl⟩
  | succ k ih =>
    obtain ⟨t, ht, htarget, hcurrent⟩ := ih { s.ramp with result := .none }
    refine ⟨t, ht, htarget, fun i hi => (hcurrent i hi).trans ?_⟩
    rw [Function.iterate_succ_apply]
    exact congrArg _ (s.ramp_current_get hi)

/-- Settles O40: the channel's value is one bounded step of `DELTA*k`, in each of its three cases. -/
theorem rampConvergesInCeilSteps : Obligations.RampConvergesInCeilSteps := by
  rintro s i k _ _ hi rfl rfl
  obtain ⟨t, ht, htarget, hcurrent⟩ := execEach_rampSteps k s
  refine ⟨t, ht, htarget, fun h => (hcurrent i hi).trans (rampValue_iterate_of_le h), fun h => ?_, fun h => ?_⟩
  · rw [hcurrent i hi, rampValue_iterate, if_pos h]
  · rw [hcurrent i hi, rampValue_iterate, if_neg (by omega), if_pos h]

end Sys2Proof.Machine
end

section
/-! The tick's actuation: a tick that does not fault ramps toward the targets its scan left and emits the values, and one that
faults moves no channel (R174, R175, R176, R190, R215). -/

namespace Sys2Proof.Machine

/-- Settles O43: by the scan's result, the tick ends with it or goes on to the ramp and the sink write. -/
theorem tickIsScanThenRampThenSink : Obligations.TickIsScanThenRampThenSink := by
  intro s
  have hscan := scans_scanPass s
  rcases hp : scanPass s with ⟨u, r⟩
  rw [hp] at hscan
  refine ⟨_, exec_scan hp, fun (hr : r = .fault) => ?_, fun hr => ?_⟩
  · subst r
    exact exec_tick_fault hp
  · exact ⟨_, _, exec_rampStep _, exec_sinkWrite _, exec_tick_next hp hr, congrArg (_ :: ·) hscan.sink⟩

/-- What a tick does to the channels and the sink, in every state and under every schedule. -/
inductive Actuates (s t : State) : Prop where
  | ramps (hr : t.result ≠ .fault) (hc : t.current = rampDrive s.params s.current t.target) (hs : t.sink = t.current :: s.sink)
  | faults (hf : t.faultUnderrun = true) (hr : t.result = .fault) (hc : t.current = s.current)

theorem exec_tick_actuates {s t : State} (h : exec .tick s = .next t) : Actuates s t := by
  have hscan := scans_scanPass s
  rcases hp : scanPass s with ⟨u, r⟩
  rw [hp] at hscan
  by_cases hr : r = .fault
  · subst r
    rw [exec_tick_fault hp] at h
    injection h with h
    subst h
    exact .faults (hscan.fault.trans (Bool.or_true _)) rfl hscan.current
  · rw [exec_tick_next hp hr] at h
    injection h with h
    subst h
    refine .ramps hr ?_ (congrArg (_ :: ·) hscan.sink)
    show u.ramp.current = rampDrive s.params s.current u.target
    rw [State.ramp_current, hscan.params, hscan.current]

/-- A bounded step is by at most DELTA, up or down. -/
theorem rampValue_slew (p : Params) (c g : Nat) : rampValue p c g ≤ c + p.delta ∧ c ≤ rampValue p c g + p.delta := by
  rw [rampValue_eq]
  split_ifs <;> omega

/-- Settles O45: a tick ramps once, or not at all. -/
theorem tickSlewIsBounded : Obligations.TickSlewIsBounded := by
  intro s
  obtain ⟨t, ht⟩ := exec_answers .tick s
  refine ⟨t, ht, fun i hi => ?_⟩
  cases exec_tick_actuates ht with
  | ramps _ hc _ =>
    rw [hc, Drive.get_rampDrive hi]
    exact rampValue_slew _ _ _
  | faults _ _ hc =>
    rw [hc]
    exact ⟨Nat.le_add_right _ _, Nat.le_add_right _ _⟩

/-- A tick that finds too little to scan leaves the next one too little as well, and the targets as they are. -/
theorem exec_tick_idle {s : State} (hq : s.arrivals = []) (h : s.occupancy < s.params.minMsgSize) :
    ∃ t, exec .tick s = .next t ∧ t.arrivals = [] ∧ t.occupancy < t.params.minMsgSize ∧ t.result ≠ .fault ∧
      t.target = s.target :=
  ⟨_, exec_tick_wait hq h, hq, h, nofun, rfl⟩

/-- One tick on the way up to 6000 with the DELTA of R7 (R174). -/
theorem exec_tick_toward_full {s t : State} {i c : Nat} (hd : s.params.delta = 450) (hi : i ∈ s.params.channelNumbers)
    (hc : s.current.get i = c) (hle : c ≤ 6000) (h : exec .tick s = .next t)
    (ht : t.result ≠ .fault ∧ t.target.get i = 6000) : t.current.get i = min (c + 450) 6000 := by
  obtain ⟨hr, hg⟩ := ht
  cases exec_tick_actuates h with
  | ramps _ hcurrent _ =>
    rw [hcurrent, Drive.get_rampDrive hi, rampValue_eq, hd, hc, hg]
    split_ifs <;> omega
  | faults _ hf _ => exact absurd hf hr

/-- Four ticks that do not fault, each with its target at 6000 for the ramp (R174). -/
theorem four_ticks_toward_full {s t1 t2 t3 t4 : State} {i : Nat} (hd : s.params.delta = 450)
    (hi : i ∈ s.params.channelNumbers) (hc : s.current.get i = 4500) (h1 : exec .tick s = .next t1)
    (h2 : exec .tick t1 = .next t2) (h3 : exec .tick t2 = .next t3) (h4 : exec .tick t3 = .next t4)
    (ht : ∀ t ∈ [t1, t2, t3, t4], t.result ≠ .fault ∧ t.target.get i = 6000) :
    t1.current.get i = 4950 ∧ t2.current.get i = 5400 ∧ t3.current.get i = 5850 ∧ t4.current.get i = 6000 := by
  have hp1 := exec_params h1
  have hp2 := (exec_params h2).trans hp1
  have hp3 := (exec_params h3).trans hp2
  have hc1 := exec_tick_toward_full hd hi hc (by decide) h1 (ht t1 (by simp))
  have hc2 := exec_tick_toward_full (hp1 ▸ hd) (hp1 ▸ hi) hc1 (by decide) h2 (ht t2 (by simp))
  have hc3 := exec_tick_toward_full (hp2 ▸ hd) (hp2 ▸ hi) hc2 (by decide) h3 (ht t3 (by simp))
  have hc4 := exec_tick_toward_full (hp3 ▸ hd) (hp3 ▸ hi) hc3 (by decide) h4 (ht t4 (by simp))
  exact ⟨hc1, hc2, hc3, hc4⟩

/-- Settles O41: idle ticks do not fault and leave the target, so that both clauses are of four such ticks. -/
theorem fourTicksFromNeutralToFull : Obligations.FourTicksFromNeutralToFull := by
  intro s i hgiven hi hc
  obtain ⟨-, -, -, -, -, -, -, -, hd⟩ := hgiven
  refine ⟨fun hq hguard hg => ?_, fun t1 t2 t3 t4 h1 h2 h3 h4 => four_ticks_toward_full hd hi hc h1 h2 h3 h4⟩
  obtain ⟨t1, h1, hq, hguard, hr1, hg1⟩ := exec_tick_idle hq hguard
  obtain ⟨t2, h2, hq, hguard, hr2, hg2⟩ := exec_tick_idle hq hguard
  obtain ⟨t3, h3, hq, hguard, hr3, hg3⟩ := exec_tick_idle hq hguard
  obtain ⟨t4, h4, -, -, hr4, hg4⟩ := exec_tick_idle hq hguard
  refine ⟨t1, t2, t3, t4, h1, h2, h3, h4, four_ticks_toward_full hd hi hc h1 h2 h3 h4 ?_⟩
  simp [hr1, hr2, hr3, hr4, hg1, hg2, hg3, hg4, hg]

end Sys2Proof.Machine
end

section
/-! Fair runs: the CONSUMER's ticks are counted, each emits one event and takes one bounded step of every channel, and there is
no end to them (R173, R176, R190, R196). -/

namespace Sys2Proof.Machine

/-! ### The ticks of a schedule -/

/-- How many of the first `n` steps are the CONSUMER's. -/
def Schedule.ticks (σ : Schedule) (n : Nat) : Nat := Nat.count (fun m => (σ m).agent = .consumer) n

theorem Schedule.ticks_succ_push {σ : Schedule} {n : Nat} {b : Byte} (h : σ n = .push b) : σ.ticks (n + 1) = σ.ticks n := by
  rw [Schedule.ticks, Nat.count_succ, if_neg (by rw [h]; nofun)]
  rfl

theorem Schedule.ticks_succ_tick {σ : Schedule} {n : Nat} {arrivals : List (List Byte)} (h : σ n = .tick arrivals) :
    σ.ticks (n + 1) = σ.ticks n + 1 := by
  rw [Schedule.ticks, Nat.count_succ, if_pos (by rw [h]; rfl)]
  rfl

theorem Schedule.ticks_mono (σ : Schedule) : Monotone σ.ticks := Nat.count_monotone _

/-- Under a fair schedule there are as many ticks as one likes (R196). -/
theorem Schedule.Fair.exists_ticks {σ : Schedule} (h : σ.Fair) (k : Nat) : ∃ n, σ.ticks n = k :=
  Nat.surjective_count_of_infinite_setOfPred (Nat.frequently_atTop_iff_infinite.mp (Filter.frequently_atTop.mpr h)) k

/-- A fair schedule is fair from every moment on. -/
theorem Schedule.Fair.drop {σ : Schedule} (h : σ.Fair) (n : Nat) : Schedule.Fair fun k => σ (n + k) := by
  intro k
  obtain ⟨m, hm, ha⟩ := h (n + k)
  obtain ⟨j, rfl⟩ := Nat.exists_eq_add_of_le hm
  exact ⟨k + j, Nat.le_add_right k j, by rwa [Nat.add_assoc] at ha⟩

/-! ### What each step of a run does to the channels and the sink -/

section
variable {σ : Schedule} {r : Nat → State} (h : σ.Runs r)
include h

/-- A run is a run from every moment on. -/
theorem Schedule.Runs.drop (n : Nat) : Schedule.Runs (fun k => σ (n + k)) fun k => r (n + k) := fun k => h (n + k)

theorem Schedule.Runs.params (n : Nat) : (r n).params = (r 0).params := by
  induction n with
  | zero => rfl
  | succ n ih => rw [step_params (h n), State.turn_params, ih]

/-- A PRODUCER's step moves no channel and emits nothing (R192). -/
theorem Schedule.Runs.push {n : Nat} {b : Byte} (hn : σ n = .push b) :
    (r (n + 1)).current = (r n).current ∧ (r (n + 1)).sink = (r n).sink := by
  have he := h n
  rw [hn, step_turn_push (h.faultFree n)] at he
  have hcurrent := exec_current he nofun nofun
  have hsink := exec_sink he nofun nofun
  exact ⟨hcurrent, hsink⟩

/-- A CONSUMER's step ramps and emits, as no step of a run faults (R190, R215). -/
theorem Schedule.Runs.tick {n : Nat} {arrivals : List (List Byte)} (hn : σ n = .tick arrivals) :
    (r (n + 1)).current = rampDrive (r n).params (r n).current (r (n + 1)).target ∧
      (r (n + 1)).sink = (r (n + 1)).current :: (r n).sink := by
  have he := h n
  rw [hn, step_turn_tick (h.faultFree n)] at he
  cases exec_tick_actuates he with
  | ramps _ hc hs => exact ⟨hc, hs⟩
  | faults hf => exact absurd hf (by simp [h.faultFree (n + 1)])

/-- Every tick of a run emits one event, and nothing else does (R176). -/
theorem Schedule.Runs.sink_length (n : Nat) : (r n).sink.length = (r 0).sink.length + σ.ticks n := by
  induction n with
  | zero => rfl
  | succ n ih =>
    cases hn : σ n with
    | push b => rw [(h.push hn).2, Schedule.ticks_succ_push hn, ih]
    | tick arrivals => rw [(h.tick hn).2, Schedule.ticks_succ_tick hn, List.length_cons, ih, Nat.add_assoc]

/-- With its target held a channel takes one bounded step with every tick of a run, and none otherwise (R170, R173). -/
theorem Schedule.Runs.current_held {i g : Nat} (hi : i ∈ (r 0).params.channelNumbers) (hg : ∀ n, (r n).target.get i = g)
    (n : Nat) : (r n).current.get i = (rampValue (r 0).params · g)^[σ.ticks n] ((r 0).current.get i) := by
  induction n with
  | zero => rfl
  | succ n ih =>
    cases hn : σ n with
    | push b => rw [(h.push hn).1, Schedule.ticks_succ_push hn, ih]
    | tick arrivals =>
      rw [(h.tick hn).1, Schedule.ticks_succ_tick hn, h.params, Drive.get_rampDrive hi, hg, Function.iterate_succ_apply', ih]

end

/-- Settles O54: there are as many events as ticks, and both only grow. -/
theorem fairRunActuatesForever : Obligations.FairRunActuatesForever := by
  intro σ r hfair hruns n k
  obtain ⟨m, hm⟩ := hfair.exists_ticks k
  have hticks : k ≤ σ.ticks (max n m) := hm ▸ σ.ticks_mono (le_max_right n m)
  refine ⟨max n m, le_max_left n m, ?_⟩
  rw [hruns.sink_length]
  exact hticks.trans (Nat.le_add_left _ _)

/-- Settles O55: counted from the moment the target is held, as many ticks as the distance are enough, as DELTA is at least
1. -/
theorem fairRunReachesHeldTarget : Obligations.FairRunReachesHeldTarget := by
  intro σ r hfair hruns n i g hi hg
  have hheld := (hruns.drop n).current_held hi fun k => hg (n + k) (Nat.le_add_right n k)
  obtain ⟨m, hm⟩ := (hfair.drop n).exists_ticks (((r n).current.get i - g) + (g - (r n).current.get i))
  refine ⟨n + m, Nat.le_add_right n m, fun k hk => ?_⟩
  obtain ⟨j, rfl⟩ := Nat.exists_eq_add_of_le hk
  rw [Nat.add_assoc]
  refine (hheld (m + j)).trans (rampValue_iterate_of_le ?_)
  calc ((r n).current.get i - g) + (g - (r n).current.get i)
      ≤ Schedule.ticks (fun k => σ (n + k)) (m + j) := hm ▸ Schedule.ticks_mono _ (Nat.le_add_right m j)
    _ ≤ (r n).params.delta * Schedule.ticks (fun k => σ (n + k)) (m + j) := Nat.le_mul_of_pos_left _ (r n).params.delta_pos

end Sys2Proof.Machine
end

section
/-! The step of either agent is enabled in every fault-free state (R190, R192, R196). -/

namespace Sys2Proof.Machine

/-- Settles O53: either agent's step is its operation, and every operation answers a next state. -/
theorem bothAgentsAreAlwaysEnabled : Obligations.BothAgentsAreAlwaysEnabled := by
  intro s hf
  constructor
  · intro arrivals
    obtain ⟨t, ht⟩ := exec_answers .tick { s with requests := [], arrivals := arrivals }
    exact ⟨t, (step_turn_tick hf arrivals).trans ht, ht⟩
  · intro b
    obtain ⟨t, ht⟩ := exec_answers (.push b) { s with requests := [] }
    exact ⟨t, (step_turn_push hf b).trans ht, ht⟩

end Sys2Proof.Machine
end
